-- ==== Sys2Proof/Word.lean ====
section
/-! DEFINITION. The two operand types of the MiniFloatCodec and its sign bit, each a vector of bits with
bit 0 least significant (spec/00_scope.md R8; R6 for the widths). -/

namespace Sys2Proof

/-- A StandardFloat32 bit pattern, `bits(32)` (R39). -/
abbrev F32 := BitVec 32

/-- A MiniFloat bit pattern, `bits(8)` (R41). -/
abbrev MF8 := BitVec 8

/-- A sign bit, `bits(1)`: 0 positive, 1 negative (R39, R41). -/
abbrev Sign := BitVec 1

end Sys2Proof
end

