-- ==== Sys2Proof/Config.lean ====
section
/-! DEFINITION. The parameters of the design. spec/00_scope.md R6 fixes every format parameter; R7 fixes
the one value the source leaves to the implementer, `NAN_PAYLOAD`. They are constants of the design, not
state (spec/10_state.md R22), and the spec leaves no value of the block open, so there is no free value. -/

namespace Sys2Proof.Config

/-- `F32_BIAS` (R6). -/
def f32Bias : Nat := 127

/-- `MF_BIAS` (R6). -/
def mfBias : Nat := 3

/-- The all-ones exponent field of a float32: infinity or NaN (R39). -/
def f32ExpMax : Nat := 255

/-- `MF_EXP_MAX`, the all-ones exponent field of a MiniFloat: infinity or NaN (R6). -/
def mfExpMax : Nat := 7

/-- `MAN_SHIFT` = 23 - 4, where the decoder places a 4-bit mantissa (R6, R50). -/
def manShift : Nat := 19

/-- `MF_MAX_FINITE`, the magnitude code of 15.5 (R6). -/
def mfMaxFinite : Nat := 0x6F

/-- The magnitude code of infinity: exponent field 7, mantissa 0 (R43, R63). -/
def mfInfinity : Nat := 0x70

/-- `NAN_PAYLOAD`, the 4-bit mantissa `ENCODE` writes for every NaN (R7, decision D7).
DESIGN CHOICE of the spec, followed; unsafe for a block built with another payload (log entry 2). The laws of the block are stated for any nonzero payload through `Machine.encodeWith`. -/
def nanPayload : BitVec 4 := 0b1111#4

end Sys2Proof.Config
end

