-- ==== Sys2Proof/Syntax.lean ====
section
/-! DEFINITION. The operations of the block: one constructor per row of spec/opcode_table.json, carrying
the fields that the row's `encoding` string leaves variable; the operand as it stands on a port; and the
names of the operand classes (spec/30_encoding.md R44, R46, R48, R56). -/

namespace Sys2Proof

/-- An operand on an input port. Which operation is performed is decided by the port alone (R56):
a value on `enc_in` is an operand of `ENCODE`, a value on `dec_in` an operand of `DECODE`. -/
inductive Operand where
  | onEncIn (w : F32)
  | onDecIn (b : MF8)
  deriving DecidableEq, Repr

/-- The primary classes of a float32 pattern (R44). -/
inductive F32Primary where
  | zero | subnormal | inf | nan | normal
  deriving DecidableEq, Repr

/-- The eight leaf classes of the encoder's operand (R44, R46). -/
inductive F32Class where
  | zero | subnormal | inf | nan | overflow | inrange | underflowDenormal | underflowZero
  deriving DecidableEq, Repr

/-- The five classes of the decoder's operand (R48). -/
inductive MF8Class where
  | zero | denormal | inf | nan | normal
  deriving DecidableEq, Repr

/-- One constructor per row of spec/opcode_table.json. `S`, `E`, `F` are the fields of a float32
operand and `s`, `e`, `m` those of a MiniFloat operand (R13); a field that a row fixes is no argument. -/
inductive Instr where
  /-- `ENCODE`, the whole operation on any pattern of `enc_in` (R59). -/
  | encode (w : F32)
  /-- `ENCODE.ZERO`: `E = 0`, `F = 0` (R61). -/
  | encodeZero (S : Sign)
  /-- `ENCODE.SUBNORMAL`: `E = 0`, `F` not 0 (R62). -/
  | encodeSubnormal (S : Sign) (F : BitVec 23)
  /-- `ENCODE.INF`: `E = 255`, `F = 0` (R63). -/
  | encodeInf (S : Sign)
  /-- `ENCODE.NAN`: `E = 255`, `F` not 0 (R64). -/
  | encodeNan (S : Sign) (F : BitVec 23)
  /-- `ENCODE.OVERFLOW`: `131 <= E <= 254` (R65). -/
  | encodeOverflow (S : Sign) (E : BitVec 8) (F : BitVec 23)
  /-- `ENCODE.INRANGE`: `125 <= E <= 130` (R66, R67). -/
  | encodeInrange (S : Sign) (E : BitVec 8) (F : BitVec 23)
  /-- `ENCODE.UNDERFLOW_DENORMAL`: `120 <= E <= 124` (R68, R70). -/
  | encodeUnderflowDenormal (S : Sign) (E : BitVec 8) (F : BitVec 23)
  /-- `ENCODE.UNDERFLOW_ZERO`: `1 <= E <= 119` (R69). -/
  | encodeUnderflowZero (S : Sign) (E : BitVec 8) (F : BitVec 23)
  /-- `DECODE`, the whole operation on any pattern of `dec_in` (R75). -/
  | decode (b : MF8)
  /-- `DECODE.ZERO`: `e = 0`, `m = 0` (R77). -/
  | decodeZero (s : Sign)
  /-- `DECODE.DENORMAL`: `e = 0`, `m` not 0 (R78). -/
  | decodeDenormal (s : Sign) (m : BitVec 4)
  /-- `DECODE.INF`: `e = 7`, `m = 0` (R79). -/
  | decodeInf (s : Sign)
  /-- `DECODE.NAN`: `e = 7`, `m` not 0 (R80). -/
  | decodeNan (s : Sign) (m : BitVec 4)
  /-- `DECODE.NORMAL`: `1 <= e <= 6` (R81). -/
  | decodeNormal (s : Sign) (e : BitVec 3) (m : BitVec 4)
  deriving DecidableEq, Repr

end Sys2Proof
end

