-- ==== Sys2Proof/WellFormed.lean ====
section
/-! DEFINITION. When a term of `Instr` is an operation of the table: its fields satisfy the condition of
its row (spec/30_encoding.md R56). A row that fixes or frees every field has no condition. -/

namespace Sys2Proof

/-- The row's condition on the instruction's fields (R56, last table). -/
def Instr.wellFormed : Instr → Bool
  | .encode _ => true
  | .encodeZero _ => true
  | .encodeSubnormal _ F => F != 0
  | .encodeInf _ => true
  | .encodeNan _ F => F != 0
  | .encodeOverflow _ E _ => 131 ≤ E.toNat && E.toNat ≤ 254
  | .encodeInrange _ E _ => 125 ≤ E.toNat && E.toNat ≤ 130
  | .encodeUnderflowDenormal _ E _ => 120 ≤ E.toNat && E.toNat ≤ 124
  | .encodeUnderflowZero _ E _ => 1 ≤ E.toNat && E.toNat ≤ 119
  | .decode _ => true
  | .decodeZero _ => true
  | .decodeDenormal _ m => m != 0
  | .decodeInf _ => true
  | .decodeNan _ m => m != 0
  | .decodeNormal _ e _ => 1 ≤ e.toNat && e.toNat ≤ 6

end Sys2Proof
end

