-- ==== Sys2Proof/Decode.lean ====
section
/-! DEFINITION. The block has no instruction words: what it decodes is its operand (spec/30_encoding.md).
Field extraction and assembly (R40, R42, R43, R49), classification (R44 to R46, R48), the decoder from an
operand to the row of the table that gives its output (R56), the encoder back to the operand, and the
table's own mask and match pairs. -/

namespace Sys2Proof

/-! ## Field extraction -/

/-- `S <- w[31]` (R40). The field positions are PRESUMED by the spec itself (R39, G1; unsafe, log entry 13). -/
def f32Sign (w : F32) : Sign := w.extractLsb' 31 1

/-- `E <- w[30:23]` (R40). -/
def f32Exp (w : F32) : BitVec 8 := w.extractLsb' 23 8

/-- `F <- w[22:0]` (R40). -/
def f32Man (w : F32) : BitVec 23 := w.extractLsb' 0 23

/-- `s <- b[7]` (R42). -/
def mf8Sign (b : MF8) : Sign := b.extractLsb' 7 1

/-- `e <- b[6:4]` (R42). -/
def mf8Exp (b : MF8) : BitVec 3 := b.extractLsb' 4 3

/-- `m <- b[3:0]` (R42). -/
def mf8Man (b : MF8) : BitVec 4 := b.extractLsb' 0 4

/-- The magnitude code `b[6:0]` of a byte (R14, R43). -/
def mf8Mag (b : MF8) : BitVec 7 := b.extractLsb' 0 7

/-! ## Assembly -/

/-- `S ++ E ++ F` (R40, R49). -/
def f32Word (S : Sign) (E : BitVec 8) (F : BitVec 23) : F32 := S ++ E ++ F

/-- `s ++ e ++ m` (R42). -/
def mf8Word (s : Sign) (e : BitVec 3) (m : BitVec 4) : MF8 := s ++ e ++ m

/-- `s ++ bits7(k)`, the byte of a sign and a magnitude code (R43). -/
def mf8OfMag (s : Sign) (k : Nat) : MF8 := s ++ BitVec.ofNat 7 k

/-- `S ++ bits8(E) ++ bits23(F)`, the word of a sign and two field values (R49, R82). -/
def f32OfFields (S : Sign) (E F : Nat) : F32 := f32Word S (BitVec.ofNat 8 E) (BitVec.ofNat 23 F)

/-! ## Classification -/

/-- The primary class, decided by `E` and `F` alone (R44). -/
def f32Primary (E : BitVec 8) (F : BitVec 23) : F32Primary :=
  if E = 0 then (if F = 0 then .zero else .subnormal)
  else if E.toNat = Config.f32ExpMax then (if F = 0 then .inf else .nan)
  else .normal

/-- `e_unb <- E - 127` (R45), an integer. -/
def unbiasedExp (E : BitVec 8) : Int := (E.toNat : Int) - Config.f32Bias

/-- The rebiased exponent `e' <- e_unb + 3` (R45), an integer: no wrap (R71 (a)). -/
def rebiasedExp (E : BitVec 8) : Int := unbiasedExp E + Config.mfBias

/-- The leaf class of a float32 operand (R44, R46). Overflow begins at `e' >= 7`
(spec/90_conflicts.md C1; log entry 8) and `e' = -4` still rounds to a denormal
(spec/92_eei_decisions.md D9; log entry 10). DESIGN CHOICE of the spec, both, followed; unsafe. -/
def f32Class (E : BitVec 8) (F : BitVec 23) : F32Class :=
  match f32Primary E F with
  | .zero => .zero
  | .subnormal => .subnormal
  | .inf => .inf
  | .nan => .nan
  | .normal =>
    if rebiasedExp E ≥ 7 then .overflow
    else if rebiasedExp E ≥ 1 then .inrange
    else if rebiasedExp E ≥ -4 then .underflowDenormal
    else .underflowZero

/-- The leaf class of the pattern on `enc_in`. -/
def f32ClassOf (w : F32) : F32Class := f32Class (f32Exp w) (f32Man w)

/-- The class of a MiniFloat operand, decided by `e` and `m` alone (R48). -/
def mf8Class (e : BitVec 3) (m : BitVec 4) : MF8Class :=
  if e = 0 then (if m = 0 then .zero else .denormal)
  else if e.toNat = Config.mfExpMax then (if m = 0 then .inf else .nan)
  else .normal

/-- The class of the pattern on `dec_in`. -/
def mf8ClassOf (b : MF8) : MF8Class := mf8Class (mf8Exp b) (mf8Man b)

/-! ## The decoder -/

/-- The class row of spec/opcode_table.json that an `enc_in` pattern belongs to (R56). -/
def decodeF32 (w : F32) : Instr :=
  match f32ClassOf w with
  | .zero => .encodeZero (f32Sign w)
  | .subnormal => .encodeSubnormal (f32Sign w) (f32Man w)
  | .inf => .encodeInf (f32Sign w)
  | .nan => .encodeNan (f32Sign w) (f32Man w)
  | .overflow => .encodeOverflow (f32Sign w) (f32Exp w) (f32Man w)
  | .inrange => .encodeInrange (f32Sign w) (f32Exp w) (f32Man w)
  | .underflowDenormal => .encodeUnderflowDenormal (f32Sign w) (f32Exp w) (f32Man w)
  | .underflowZero => .encodeUnderflowZero (f32Sign w) (f32Exp w) (f32Man w)

/-- The class row of spec/opcode_table.json that a `dec_in` pattern belongs to (R56). -/
def decodeMF8 (b : MF8) : Instr :=
  match mf8ClassOf b with
  | .zero => .decodeZero (mf8Sign b)
  | .denormal => .decodeDenormal (mf8Sign b) (mf8Man b)
  | .inf => .decodeInf (mf8Sign b)
  | .nan => .decodeNan (mf8Sign b) (mf8Man b)
  | .normal => .decodeNormal (mf8Sign b) (mf8Exp b) (mf8Man b)

/-- Decoding an operand: total, with no invalid verdict (R54). It answers the leaf row, never one of the
two whole-operation rows, whose every operand is also an operand of a leaf row. DESIGN CHOICE, safe
(log entry 4). -/
def decode : Operand → Instr
  | .onEncIn w => decodeF32 w
  | .onDecIn b => decodeMF8 b

/-- Why a bit string is no operand of the block. -/
inductive DecodeError where
  /-- The operand widths are fixed: 32 bits on `enc_in`, 8 bits on `dec_in` (R30, R55). -/
  | noPortOfWidth (nbits : Nat)
  deriving DecidableEq, Repr

/-- The operand that `nbits` bits with value `w` are: the width tells the port (R30, R55). DESIGN CHOICE,
safe (log entry 12). -/
def operandOfBits (nbits w : Nat) : Except DecodeError Operand :=
  if nbits = 32 then .ok (.onEncIn (BitVec.ofNat 32 w))
  else if nbits = 8 then .ok (.onDecIn (BitVec.ofNat 8 w))
  else .error (.noPortOfWidth nbits)

/-- Decoding any bit string, rejecting by name one that fits no port. -/
def decodeBits (nbits w : Nat) : Except DecodeError Instr :=
  match operandOfBits nbits w with
  | .ok p => .ok (decode p)
  | .error e => .error e

/-- The instruction the decoder reads from a word of spec/opcode_table.json. A port takes its operand
whole, so there is no byte order to lay out (R29). -/
def decodeTableWord (nbits w : Nat) : Option Instr :=
  match decodeBits nbits w with
  | .ok i => some i
  | .error _ => none

/-! ## The encoder -/

/-- The operand an instruction stands for: its row's `encoding` string with the fields filled in (R56). -/
def encode : Instr → Operand
  | .encode w => .onEncIn w
  | .encodeZero S => .onEncIn (f32Word S 0 0)
  | .encodeSubnormal S F => .onEncIn (f32Word S 0 F)
  | .encodeInf S => .onEncIn (f32Word S 0xFF 0)
  | .encodeNan S F => .onEncIn (f32Word S 0xFF F)
  | .encodeOverflow S E F => .onEncIn (f32Word S E F)
  | .encodeInrange S E F => .onEncIn (f32Word S E F)
  | .encodeUnderflowDenormal S E F => .onEncIn (f32Word S E F)
  | .encodeUnderflowZero S E F => .onEncIn (f32Word S E F)
  | .decode b => .onDecIn b
  | .decodeZero s => .onDecIn (mf8Word s 0 0)
  | .decodeDenormal s m => .onDecIn (mf8Word s 0 m)
  | .decodeInf s => .onDecIn (mf8Word s 7 0)
  | .decodeNan s m => .onDecIn (mf8Word s 7 m)
  | .decodeNormal s e m => .onDecIn (mf8Word s e m)

/-- Is the instruction one of the thirteen class rows? The two whole-operation rows are not (R56). -/
def isClassRow : Instr → Bool
  | .encode _ => false
  | .decode _ => false
  | _ => true

/-! ## The table's masks -/

/-- The (mask, match) pairs of an `ENCODE.*` class row: its own pair, or the `mask_match_cover` list of a
range row, as spec/opcode_table.json prints them (R56). -/
def f32Cover : F32Class → List (F32 × F32)
  | .zero => [(0x7FFFFFFF, 0x00000000)]
  | .subnormal => [(0x7F800000, 0x00000000)]
  | .inf => [(0x7FFFFFFF, 0x7F800000)]
  | .nan => [(0x7F800000, 0x7F800000)]
  | .overflow =>
    [(0x7F800000, 0x41800000), (0x7E000000, 0x42000000), (0x7C000000, 0x44000000),
     (0x78000000, 0x48000000), (0x70000000, 0x50000000), (0x70000000, 0x60000000),
     (0x78000000, 0x70000000), (0x7C000000, 0x78000000), (0x7E000000, 0x7C000000),
     (0x7F000000, 0x7E000000), (0x7F800000, 0x7F000000)]
  | .inrange =>
    [(0x7F800000, 0x3E800000), (0x7F000000, 0x3F000000), (0x7F000000, 0x40000000),
     (0x7F800000, 0x41000000)]
  | .underflowDenormal => [(0x7E000000, 0x3C000000), (0x7F800000, 0x3E000000)]
  | .underflowZero =>
    [(0x7F800000, 0x00800000), (0x7F000000, 0x01000000), (0x7E000000, 0x02000000),
     (0x7C000000, 0x04000000), (0x78000000, 0x08000000), (0x70000000, 0x10000000),
     (0x70000000, 0x20000000), (0x78000000, 0x30000000), (0x7C000000, 0x38000000)]

/-- The (mask, match) pairs of a `DECODE.*` class row, as spec/opcode_table.json prints them (R56). -/
def mf8Cover : MF8Class → List (MF8 × MF8)
  | .zero => [(0x7F, 0x00)]
  | .denormal => [(0x70, 0x00)]
  | .inf => [(0x7F, 0x70)]
  | .nan => [(0x70, 0x70)]
  | .normal => [(0x70, 0x10), (0x60, 0x20), (0x60, 0x40), (0x70, 0x60)]

/-- The row's `extra_condition` on the mantissa that no mask expresses (R56). -/
def f32Extra : F32Class → F32 → Bool
  | .subnormal, w => f32Man w != 0
  | .nan, w => f32Man w != 0
  | _, _ => true

/-- The row's `extra_condition` on the mantissa that no mask expresses (R56). -/
def mf8Extra : MF8Class → MF8 → Bool
  | .denormal, b => mf8Man b != 0
  | .nan, b => mf8Man b != 0
  | _, _ => true

/-- Does the operand satisfy the row, read from the table with masks alone (R56)? -/
def f32RowMatches (c : F32Class) (w : F32) : Bool :=
  (f32Cover c).any (fun p => w &&& p.1 == p.2) && f32Extra c w

/-- Does the operand satisfy the row, read from the table with masks alone (R56)? -/
def mf8RowMatches (c : MF8Class) (b : MF8) : Bool :=
  (mf8Cover c).any (fun p => b &&& p.1 == p.2) && mf8Extra c b

end Sys2Proof
end

