-- ==== Sys2Proof/Machine/Operands.lean ====
section
/-! DEFINITION. The values the two units assemble from an operand's fields: the named wires of the
operation rules (spec/30_encoding.md R47, R50, R51; spec/40_encode.md R66, R68; spec/10_state.md section 9;
spec/60_exceptions.md R112). All are functions of the operand; none is state. -/

namespace Sys2Proof.Machine

/-! ## Encoder -/

/-- `top4 <- F[22:19]` (R47 (a)). -/
def top4 (F : BitVec 23) : BitVec 4 := F.extractLsb' 19 4

/-- `rbit <- F[18]` (R47 (b)). -/
def rbit (F : BitVec 23) : BitVec 1 := F.extractLsb' 18 1

/-- `sig5 <- 1 ++ top4` (R47 (c)). -/
def sig5 (F : BitVec 23) : BitVec 5 := 1#1 ++ top4 F

/-- `sig24 <- 1 ++ F`, the whole significand (R47 (e)). -/
def sig24 (F : BitVec 23) : BitVec 24 := 1#1 ++ F

/-- `k0 <- 16 * e' + top4`, the truncated code of an in-range operand (R66). -/
def k0 (E : BitVec 8) (F : BitVec 23) : Nat := 16 * (rebiasedExp E).toNat + (top4 F).toNat

/-- `k1 <- k0 + rbit`, the rounded code (R66). -/
def k1 (E : BitVec 8) (F : BitVec 23) : Nat := k0 E F + (rbit F).toNat

/-- `d <- 1 - e'`, the underflow shift amount (R68). DESIGN CHOICE of the spec (D9), followed; unsafe (log
entry 10). -/
def shiftAmount (E : BitVec 8) : Nat := (1 - rebiasedExp E).toNat

/-- `q <- sig5 >> d`, the retained bits (R68). The shift has no width limit (R9, R71 (b)). -/
def retained (E : BitVec 8) (F : BitVec 23) : Nat := (sig5 F).toNat >>> shiftAmount E

/-- `r <- (sig5 >> (d - 1)) & 1`, the highest discarded bit (R68). -/
def highestDiscarded (E : BitVec 8) (F : BitVec 23) : Nat :=
  ((sig5 F).toNat >>> (shiftAmount E - 1)) &&& 1

/-! ## Decoder -/

/-- `widen(m) = m << 19`, as an integer (R50). -/
def widen (m : BitVec 4) : Nat := m.toNat <<< Config.manShift

/-- `hibit(m)` of a 4-bit mantissa, as the priority encode of R122; meaningful for `m` not 0 (R9, R51). -/
def hibit (m : BitVec 4) : Nat :=
  if m.getLsbD 3 then 3 else if m.getLsbD 2 then 2 else if m.getLsbD 1 then 1 else 0

/-- `rest <- m - 2^p` (R51). -/
def restBits (m : BitVec 4) : Nat := m.toNat - 2 ^ hibit m

/-- `norm(m) = rest << (23 - p)` (R51). -/
def normMantissa (m : BitVec 4) : Nat := restBits m <<< (23 - hibit m)

end Sys2Proof.Machine
end

