-- ==== Sys2Proof/Machine/DecodeUnit.lean ====
section
/-! DEFINITION. The decoder unit `DEC` (spec/41_decode.md): the output fields of each case and the
function `DECODE`. -/

namespace Sys2Proof.Machine

/-! ## The output fields `(E_out, F_out)` of each case -/

/-- R77. -/
def zeroFields : Nat × Nat := (0, 0)

/-- R78: the highest set bit becomes the implicit leading 1. -/
def denormalFields (m : BitVec 4) : Nat × Nat :=
  (Config.f32Bias - Config.mfBias - (3 - hibit m), normMantissa m)

/-- R79. -/
def infFields : Nat × Nat := (Config.f32ExpMax, 0)

/-- R80: the mantissa is forwarded, placed as in the normalized case. DESIGN CHOICE of the
spec (D8), followed; unsafe (log entry 11). -/
def nanFields (m : BitVec 4) : Nat × Nat := (Config.f32ExpMax, widen m)

/-- `e_unb <- e - 3` (R81), an integer. -/
def unbiasedMiniExp (e : BitVec 3) : Int := (e.toNat : Int) - Config.mfBias

/-- R81: `E_out <- e_unb + 127`. -/
def normalFields (e : BitVec 3) (m : BitVec 4) : Nat × Nat :=
  ((unbiasedMiniExp e + Config.f32Bias).toNat, widen m)

/-! ## The operation -/

/-- The fields given by the one case rule whose condition the operand satisfies (R75). -/
def decodeFields (e : BitVec 3) (m : BitVec 4) : Nat × Nat :=
  match mf8Class e m with
  | .zero => zeroFields
  | .denormal => denormalFields m
  | .inf => infFields
  | .nan => nanFields m
  | .normal => normalFields e m

/-- The 32-bit word of a sign and a pair of output fields (R82). -/
def f32OfPair (s : Sign) (p : Nat × Nat) : F32 := f32OfFields s p.1 p.2

/-- `DECODE` (R75, R76, R82). -/
def decodeByte (b : MF8) : F32 := f32OfPair (mf8Sign b) (decodeFields (mf8Exp b) (mf8Man b))

end Sys2Proof.Machine
end

