-- ==== Sys2Proof/Machine/EncodeUnit.lean ====
section
/-! DEFINITION. The encoder unit `ENC` (spec/40_encode.md): the magnitude code of each case and the
function `ENCODE`. -/

namespace Sys2Proof.Machine

/-! ## The magnitude code of each case -/

/-- R61: zero gives code 0. -/
def zeroMag : Nat := 0

/-- R62: a float32 subnormal is flushed (D10). -/
def subnormalMag : Nat := 0

/-- R63: exponent field 7, mantissa 0. -/
def infMag : Nat := Config.mfInfinity

/-- R64: exponent field 7 and the fixed payload, whatever the operand's own payload. -/
def nanMag (np : BitVec 4) : Nat := Config.mfInfinity + np.toNat

/-- R65: saturate to the largest finite magnitude. -/
def overflowMag : Nat := Config.mfMaxFinite

/-- R66 and R67: the rounded code, or the largest finite one when the carry reaches exponent field 7
(spec/90_conflicts.md C2). DESIGN CHOICE of the spec (D12), followed; unsafe (log entry 9). -/
def inrangeMag (E : BitVec 8) (F : BitVec 23) : Nat :=
  if k1 E F = Config.mfInfinity then Config.mfMaxFinite else k1 E F

/-- R68 and R70: the shifted and rounded significand; 16 is the smallest normal. DESIGN
CHOICE of the spec (D9, D11), followed; unsafe (log entry 10). -/
def underflowDenormalMag (E : BitVec 8) (F : BitVec 23) : Nat := retained E F + highestDiscarded E F

/-- R69: the shift discards the value entirely. -/
def underflowZeroMag : Nat := 0

/-! ## The operation -/

/-- The magnitude code given by the one case rule whose condition the operand satisfies (R59). -/
def encodeMag (np : BitVec 4) (E : BitVec 8) (F : BitVec 23) : Nat :=
  match f32Class E F with
  | .zero => zeroMag
  | .subnormal => subnormalMag
  | .inf => infMag
  | .nan => nanMag np
  | .overflow => overflowMag
  | .inrange => inrangeMag E F
  | .underflowDenormal => underflowDenormalMag E F
  | .underflowZero => underflowZeroMag

/-- `ENCODE` of a block built with NaN payload `np` (R7, R59, R60). -/
def encodeWith (np : BitVec 4) (w : F32) : MF8 :=
  mf8OfMag (f32Sign w) (encodeMag np (f32Exp w) (f32Man w))

/-- `ENCODE` (R59). -/
def encodeWord (w : F32) : MF8 := encodeWith Config.nanPayload w

end Sys2Proof.Machine
end

