-- ==== Sys2Proof/Machine/State.lean ====
section
/-! DEFINITION. What the machine holds: the values of the block's four ports (spec/10_state.md R15 to
R18), the connection the environment has made between them (spec/70_reset_and_hazards.md R119), and what the
environment has still to do. The block itself has no storage (R19 to R25): no register, program counter, flag,
control register or memory. -/

namespace Sys2Proof.Machine

/-- The reasons the machine stops with a fault: none. The block raises no exception, has no invalid
operand, no trap and no stuck state (spec/60_exceptions.md R101, R106), so the type is empty. -/
inductive Fault where
  deriving DecidableEq, Repr

/-- The reasons the machine refuses an instruction. -/
inductive Refusal where
  /-- Raised only by an arm of `exec` whose instruction has no meaning yet (safe). No arm is such. -/
  | notModelled (mnemonic : String)
  deriving DecidableEq, Repr

/-- `<src32>` of a stimulus line (spec/30_encoding.md R57): what the environment puts on `enc_in`. -/
inductive Src32 where
  /-- A 32-bit literal. -/
  | lit (w : F32)
  /-- The value the environment now reads on `dec_out`, an earlier `DECODE` result (R57, R58). -/
  | decOut
  deriving DecidableEq, Repr

/-- `<src8>` of a stimulus line (R57): what the environment puts on `dec_in`. -/
inductive Src8 where
  /-- An 8-bit literal. -/
  | lit (b : MF8)
  /-- The value the environment now reads on `enc_out`, an earlier `ENCODE` result (R57, R58). -/
  | encOut
  deriving DecidableEq, Repr

/-- The lasting connection the environment has made between the two units
(spec/70_reset_and_hazards.md R117, R119). Both connections at once are the combinational loop that R119
forbids and gives no meaning, so there is no such value: DESIGN CHOICE, safe (log entry 6). -/
inductive Wiring where
  /-- The environment drives both inputs (log entry 15). -/
  | apart
  /-- `enc_out` is wired to `dec_in` (R119, `RT32`). -/
  | encToDec
  /-- `dec_out` is wired to `enc_in` (R119, `RT8`). -/
  | decToEnc
  deriving DecidableEq, Repr

/-- One thing the environment does (R57; spec/70_reset_and_hazards.md R117, R119, R123): drive an input, or
connect the units. -/
inductive Stimulus where
  | encode (src : Src32)
  | decode (src : Src8)
  | connect (c : Wiring)
  deriving DecidableEq, Repr

/-- The machine's state. The first four fields are the ports, `wiring` is the environment's connection of
them; `stim` is the model's own: DESIGN CHOICE, safe (log entry 3). -/
structure State where
  /-- Port `enc_in` of unit `ENC` (R15). -/
  encIn : F32
  /-- Port `enc_out` of unit `ENC` (R16). -/
  encOut : MF8
  /-- Port `dec_in` of unit `DEC` (R17). -/
  decIn : MF8
  /-- Port `dec_out` of unit `DEC` (R18). -/
  decOut : F32
  /-- The connection between the units that the environment has made (R117, R119). -/
  wiring : Wiring
  /-- What the environment has still to do, next thing first (R57, R117). -/
  stim : List Stimulus
  deriving DecidableEq, Repr

/-- The machine before the environment has asked for anything. The block has no reset and no reset
values (R27, R115); both inputs are taken to carry the zero pattern and each output is the value of its
unit's function there (R26); the units are not connected. DESIGN CHOICE, unsafe (log entry 1). -/
def State.reset : State where
  encIn := 0x00000000#32
  encOut := 0x00#8
  decIn := 0x00#8
  decOut := 0x00000000#32
  wiring := .apart
  stim := []

end Sys2Proof.Machine
end

