-- ==== Sys2Proof/Machine/Ops.lean ====
section
/-! DEFINITION. The named operations over the state: settling a unit, the wire between the units, driving an
input port, and taking the environment's next stimulus. There is no memory, no register file and no
exception to take (spec/20_memory.md R28; spec/60_exceptions.md R101, R106, R107). -/

namespace Sys2Proof.Machine

/-! ## Ports and the wire -/

/-- Unit `ENC` with `w` on `enc_in` and `y` on `enc_out`. -/
def settleEnc (w : F32) (y : MF8) (s : State) : State := { s with encIn := w, encOut := y }

/-- Unit `DEC` with `b` on `dec_in` and `y` on `dec_out`. -/
def settleDec (b : MF8) (y : F32) (s : State) : State := { s with decIn := b, decOut := y }

/-- A wire puts the value of the output at one end on the input at the other, and the unit there shows its
function of it (spec/70_reset_and_hazards.md R119, spec/10_state.md R26). Without a wire the units do not
touch each other (spec/00_scope.md R3, spec/20_memory.md R28). -/
def carryWire (s : State) : State :=
  match s.wiring with
  | .apart => s
  | .encToDec => settleDec s.encOut (decodeByte s.encOut) s
  | .decToEnc => settleEnc s.decOut (encodeWord s.decOut) s

/-- The wire `c` is taken away if it is there. -/
def unwire (c : Wiring) (s : State) : State := if s.wiring = c then { s with wiring := .apart } else s

/-- The environment drives `enc_in` with `w`, on which `ENC` shows `y`; a wire from `enc_out` carries `y` on.
A wire onto `enc_in` gives way to the driven pattern: DESIGN CHOICE, unsafe for a port with two drivers
(log entry 6). -/
def driveEncIn (w : F32) (y : MF8) (s : State) : State :=
  carryWire (settleEnc w y (unwire .decToEnc s))

/-- The environment drives `dec_in` with `b`, on which `DEC` shows `y`; a wire from `dec_out` carries `y` on.
A wire onto `dec_in` gives way, as in `driveEncIn` (log entry 6). -/
def driveDecIn (b : MF8) (y : F32) (s : State) : State :=
  carryWire (settleDec b y (unwire .encToDec s))

/-- The environment connects the units as `c` says, in place of the connection there was (R117, R119). An input
whose wire is taken away or replaced keeps the pattern it last carried, as if the environment went on driving
it: the spec gives an undriven input no value (R121, D23, H2). DESIGN CHOICE, unsafe (log entry 15). -/
def connectUnits (c : Wiring) (s : State) : State := carryWire { s with wiring := c }

/-! ## Stimuli -/

/-- The pattern that `<src32>` puts on `enc_in` (spec/30_encoding.md R57, R58). An output named as a source is
read when the stimulus is applied; a lasting connection is `Stimulus.connect`. -/
def src32Value (src : Src32) (s : State) : F32 :=
  match src with
  | .lit w => w
  | .decOut => s.decOut

/-- The pattern that `<src8>` puts on `dec_in` (R57, R58), read as in `src32Value`. -/
def src8Value (src : Src8) (s : State) : MF8 :=
  match src with
  | .lit b => b
  | .encOut => s.encOut

/-- What a stimulus does: evaluate a unit on an operand (R56, R57) or connect the units (R117, R119). -/
inductive Action where
  | evaluate (p : Operand)
  | connect (c : Wiring)
  deriving DecidableEq, Repr

/-- The action of a stimulus in a state. -/
def stimulusAction (t : Stimulus) (s : State) : Action :=
  match t with
  | .encode src => .evaluate (.onEncIn (src32Value src s))
  | .decode src => .evaluate (.onDecIn (src8Value src s))
  | .connect c => .connect c

/-- The next action and the state with its stimulus taken; none when the environment asks for nothing more. -/
def nextAction (s : State) : Option (Action × State) :=
  match s.stim with
  | [] => none
  | t :: rest => some (stimulusAction t s, { s with stim := rest })

/-- The literal stimulus that applies an operand to its port. -/
def literalStimulus : Operand → Stimulus
  | .onEncIn w => .encode (.lit w)
  | .onDecIn b => .decode (.lit b)

/-- The environment asks for the evaluation of `p` before everything else. -/
def pushOperand (p : Operand) (s : State) : State := { s with stim := literalStimulus p :: s.stim }

end Sys2Proof.Machine
end

