-- ==== Sys2Proof/Machine/DecodeRows.lean ====
section
/-! DEFINITION. The meanings of the `DECODE` rows of spec/opcode_table.json: the operand is driven onto the
input of unit `DEC`, which shows its function of it (spec/30_encoding.md R56, spec/10_state.md R26). -/

namespace Sys2Proof.Machine

/-- Evaluate the class row `c`, whose rule gives the fields `p`, on the operand `sg ++ e ++ m`. As in
`evalEncodeRow`, the class of the operand selects the rule (R56, R26). DEDUCED, safe
(log entry 5). -/
def evalDecodeRow (c : MF8Class) (p : Nat × Nat) (sg : Sign) (e : BitVec 3) (m : BitVec 4)
    (s : State) : Host.Outcome State Fault Refusal :=
  .next (driveDecIn (mf8Word sg e m)
    (f32OfPair sg (if mf8Class e m = c then p else decodeFields e m)) s)

/-- `DECODE` (R75). -/
def execDecode (b : MF8) (s : State) : Host.Outcome State Fault Refusal :=
  .next (driveDecIn b (decodeByte b) s)

/-- `DECODE.ZERO` (R77). -/
def execDecodeZero (sg : Sign) (s : State) : Host.Outcome State Fault Refusal :=
  evalDecodeRow .zero zeroFields sg 0 0 s

/-- `DECODE.DENORMAL` (R78). -/
def execDecodeDenormal (sg : Sign) (m : BitVec 4) (s : State) : Host.Outcome State Fault Refusal :=
  evalDecodeRow .denormal (denormalFields m) sg 0 m s

/-- `DECODE.INF` (R79). -/
def execDecodeInf (sg : Sign) (s : State) : Host.Outcome State Fault Refusal :=
  evalDecodeRow .inf infFields sg 7 0 s

/-- `DECODE.NAN` (R80). -/
def execDecodeNan (sg : Sign) (m : BitVec 4) (s : State) : Host.Outcome State Fault Refusal :=
  evalDecodeRow .nan (nanFields m) sg 7 m s

/-- `DECODE.NORMAL` (R81). -/
def execDecodeNormal (sg : Sign) (e : BitVec 3) (m : BitVec 4) (s : State) :
    Host.Outcome State Fault Refusal :=
  evalDecodeRow .normal (normalFields e m) sg e m s

end Sys2Proof.Machine
end

