-- ==== Sys2Proof/Machine/EncodeRows.lean ====
section
/-! DEFINITION. The meanings of the `ENCODE` rows of spec/opcode_table.json: the operand is driven onto the
input of unit `ENC`, which shows its function of it (spec/30_encoding.md R56, spec/10_state.md R26). -/

namespace Sys2Proof.Machine

/-- Evaluate the class row `c`, whose rule gives magnitude code `k`, on the operand `S ++ E ++ F`. The
class of the operand, not the row's name, selects the rule (R56, R26): on fields outside the row's
condition, which no decoded operand has, the unit still answers `ENCODE` of the operand. DEDUCED,
safe (log entry 5). -/
def evalEncodeRow (c : F32Class) (k : Nat) (S : Sign) (E : BitVec 8) (F : BitVec 23) (s : State) :
    Host.Outcome State Fault Refusal :=
  .next (driveEncIn (f32Word S E F)
    (mf8OfMag S (if f32Class E F = c then k else encodeMag Config.nanPayload E F)) s)

/-- `ENCODE` (R59). -/
def execEncode (w : F32) (s : State) : Host.Outcome State Fault Refusal :=
  .next (driveEncIn w (encodeWord w) s)

/-- `ENCODE.ZERO` (R61). -/
def execEncodeZero (S : Sign) (s : State) : Host.Outcome State Fault Refusal :=
  evalEncodeRow .zero zeroMag S 0 0 s

/-- `ENCODE.SUBNORMAL` (R62). -/
def execEncodeSubnormal (S : Sign) (F : BitVec 23) (s : State) : Host.Outcome State Fault Refusal :=
  evalEncodeRow .subnormal subnormalMag S 0 F s

/-- `ENCODE.INF` (R63). -/
def execEncodeInf (S : Sign) (s : State) : Host.Outcome State Fault Refusal :=
  evalEncodeRow .inf infMag S 0xFF 0 s

/-- `ENCODE.NAN` (R64). -/
def execEncodeNan (S : Sign) (F : BitVec 23) (s : State) : Host.Outcome State Fault Refusal :=
  evalEncodeRow .nan (nanMag Config.nanPayload) S 0xFF F s

/-- `ENCODE.OVERFLOW` (R65). -/
def execEncodeOverflow (S : Sign) (E : BitVec 8) (F : BitVec 23) (s : State) :
    Host.Outcome State Fault Refusal :=
  evalEncodeRow .overflow overflowMag S E F s

/-- `ENCODE.INRANGE` (R66, R67). -/
def execEncodeInrange (S : Sign) (E : BitVec 8) (F : BitVec 23) (s : State) :
    Host.Outcome State Fault Refusal :=
  evalEncodeRow .inrange (inrangeMag E F) S E F s

/-- `ENCODE.UNDERFLOW_DENORMAL` (R68, R70). -/
def execEncodeUnderflowDenormal (S : Sign) (E : BitVec 8) (F : BitVec 23) (s : State) :
    Host.Outcome State Fault Refusal :=
  evalEncodeRow .underflowDenormal (underflowDenormalMag E F) S E F s

/-- `ENCODE.UNDERFLOW_ZERO` (R69). -/
def execEncodeUnderflowZero (S : Sign) (E : BitVec 8) (F : BitVec 23) (s : State) :
    Host.Outcome State Fault Refusal :=
  evalEncodeRow .underflowZero underflowZeroMag S E F s

end Sys2Proof.Machine
end

