-- ==== Sys2Proof/Machine/Dispatch.lean ====
section
/-! DEFINITION. One arm per row of spec/opcode_table.json, each a direct call of the row's meaning. -/

namespace Sys2Proof.Machine

def exec (i : Instr) (s : State) : Host.Outcome State Fault Refusal :=
  match i with
  | .encode w => Sys2Proof.Machine.execEncode w s
  | .encodeZero S => Sys2Proof.Machine.execEncodeZero S s
  | .encodeSubnormal S F => Sys2Proof.Machine.execEncodeSubnormal S F s
  | .encodeInf S => Sys2Proof.Machine.execEncodeInf S s
  | .encodeNan S F => Sys2Proof.Machine.execEncodeNan S F s
  | .encodeOverflow S E F => Sys2Proof.Machine.execEncodeOverflow S E F s
  | .encodeInrange S E F => Sys2Proof.Machine.execEncodeInrange S E F s
  | .encodeUnderflowDenormal S E F => Sys2Proof.Machine.execEncodeUnderflowDenormal S E F s
  | .encodeUnderflowZero S E F => Sys2Proof.Machine.execEncodeUnderflowZero S E F s
  | .decode b => Sys2Proof.Machine.execDecode b s
  | .decodeZero g => Sys2Proof.Machine.execDecodeZero g s
  | .decodeDenormal g m => Sys2Proof.Machine.execDecodeDenormal g m s
  | .decodeInf g => Sys2Proof.Machine.execDecodeInf g s
  | .decodeNan g m => Sys2Proof.Machine.execDecodeNan g m s
  | .decodeNormal g e m => Sys2Proof.Machine.execDecodeNormal g e m s

end Sys2Proof.Machine
end

