-- ==== Sys2Proof/Machine/Step.lean ====
section
/-! DEFINITION. One step: the environment's next stimulus is applied and the units settle
(spec/70_reset_and_hazards.md R117, R119, R123); with no stimulus left the ports keep their values
(spec/10_state.md R26). -/

namespace Sys2Proof.Machine

/-- Take the next stimulus; decode its operand and run the instruction it is, or connect the units. One
stimulus is applied a step: DESIGN CHOICE, safe (log entry 3). Settling time is left out (R120; log entry 7,
unsafe). -/
def step (s : State) : Host.Outcome State Fault Refusal :=
  match nextAction s with
  | none => .next s
  | some (.evaluate p, s') => exec (decode p) s'
  | some (.connect c, s') => .next (connectUnits c s')

/-- `s` with the operand of `nbits` bits and value `w` asked for next; a width that no port has leaves
`s` as it is (R30). -/
def State.withFetchWord (s : State) (nbits w : Nat) : State :=
  match operandOfBits nbits w with
  | .ok p => pushOperand p s
  | .error _ => s

end Sys2Proof.Machine
end

