-- ==== Sys2Proof/Machine/Flags.lean ====
section
/-! DEFINITION. Flags: the block has none (spec/10_state.md R21, spec/42_numerics.md R91), so no operation
computes one. What stands here is the spec's complete list of the situations that other hardware would
signal (spec/60_exceptions.md R102), each as a condition on the operand of `ENCODE`; nothing records them. -/

namespace Sys2Proof.Machine

/-- The rows of the table of R102 about `ENCODE`. -/
inductive Situation where
  | overflow | overflowByRounding | underflow | totalUnderflow | subnormalLoss
  | inexact | invalid | nanPayloadLoss
  deriving DecidableEq, Repr

/-- The bits of the significand that the encoder's shift discards are not all 0 (R102 `inexact`, R66, R68).
In range the shift is by 19; on the denormal path it is by `19 + d`. -/
def discardsBits (E : BitVec 8) (F : BitVec 23) : Bool :=
  match f32Class E F with
  | .inrange => (sig24 F).toNat % 2 ^ 19 != 0
  | .underflowDenormal => (sig24 F).toNat % 2 ^ (19 + shiftAmount E) != 0
  | _ => false

/-- Does the operand show the situation? The condition is the `operand` column of R102. -/
def showsSituation (q : Situation) (w : F32) : Bool :=
  match q with
  | .overflow => f32ClassOf w == .overflow
  | .overflowByRounding =>
    f32ClassOf w == .inrange && k1 (f32Exp w) (f32Man w) == Config.mfInfinity
  | .underflow => f32ClassOf w == .underflowDenormal
  | .totalUnderflow => f32ClassOf w == .underflowZero
  | .subnormalLoss => f32ClassOf w == .subnormal
  | .inexact => discardsBits (f32Exp w) (f32Man w)
  | .invalid => f32ClassOf w == .nan && !(f32Man w).getLsbD 22
  | .nanPayloadLoss => f32ClassOf w == .nan

end Sys2Proof.Machine
end

