-- ==== Sys2Proof/Machine/Numerics.lean ====
section
/-! DEFINITION. The real number a finite pattern stands for (spec/30_encoding.md R52, R53) and the value set
of the format (spec/42_numerics.md R85). No operation uses them; the laws of the block are stated in them. -/

namespace Sys2Proof.Machine

/-- `(-1)^S` for a sign bit. -/
def signFactor (S : Sign) : ℚ := if S = 1 then -1 else 1

/-- `val32(w)`, defined for `E` not 255 (R52). -/
def val32 (w : F32) : Option ℚ :=
  let E := (f32Exp w).toNat
  let F := (f32Man w).toNat
  if E = 255 then none
  else if E = 0 then some (signFactor (f32Sign w) * F * (2 : ℚ) ^ (-149 : ℤ))
  else some (signFactor (f32Sign w) * (2 : ℚ) ^ ((E : ℤ) - 127) * (1 + (F : ℚ) / 2 ^ 23))

/-- `val8(b)`, defined for `e` not 7 (R53). -/
def val8 (b : MF8) : Option ℚ :=
  let e := (mf8Exp b).toNat
  let m := (mf8Man b).toNat
  if e = 7 then none
  else if e = 0 then some (signFactor (mf8Sign b) * m * (2 : ℚ) ^ (-6 : ℤ))
  else some (signFactor (mf8Sign b) * (2 : ℚ) ^ ((e : ℤ) - 3) * (1 + (m : ℚ) / 16))

/-- `V[k] = val8(bits8(k))` for `k = 0 .. 0x6F`, the finite non-negative values (R85); 0 for a `k` whose
pattern has no value. -/
def valueSet (k : Nat) : ℚ := (val8 (BitVec.ofNat 8 k)).getD 0

/-- The mid-point `(V[k-1] + V[k]) / 2` (R97). -/
def valueMidpoint (k : Nat) : ℚ := (valueSet (k - 1) + valueSet k) / 2

/-- `uint(w[30:0])`, a float32 pattern without its sign (R92). -/
def magBits (w : F32) : Nat := w.toNat % 2 ^ 31

/-- `Decode(Encode(x))`, the pseudo-operation `RT32` (R58). -/
def roundTrip32 (w : F32) : F32 := decodeByte (encodeWord w)

/-- `Encode(Decode(b))`, the pseudo-operation `RT8` (R58). -/
def roundTrip8 (b : MF8) : MF8 := encodeWord (decodeByte b)

end Sys2Proof.Machine
end

