-- ==== Sys2Proof/Machine/Program.lean ====
section
/-! DEFINITION. Stimulus programs (spec/30_encoding.md R57, R58): the lines `ENCODE`, `DECODE`, `RT32` and
`RT8` of a test bench, the names they bind, and the stimuli they are for the machine. A name binds a value
of the test bench and is no register of the block, so bindings are no part of `State`. DESIGN CHOICE, safe
(log entry 14). -/

namespace Sys2Proof.Machine

/-- `<src32>`: a literal or the name of an earlier `DECODE` result (R57). Names are numbered. -/
inductive Named32 where
  | lit (w : F32)
  | name (n : Nat)
  deriving DecidableEq, Repr

/-- `<src8>`: a literal or the name of an earlier `ENCODE` result (R57). -/
inductive Named8 where
  | lit (b : MF8)
  | name (n : Nat)
  deriving DecidableEq, Repr

/-- A line of a stimulus program (R57) or a pseudo-operation (R58). -/
inductive Line where
  | encode (n : Nat) (src : Named32)
  | decode (n : Nat) (src : Named8)
  | rt32 (n : Nat) (src : Named32)
  | rt8 (n : Nat) (src : Named8)
  deriving DecidableEq, Repr

/-- The names bound so far, latest first: to `enc_out` values and to `dec_out` values. The two kinds of result
have a name space each, so that one number can name a byte and a word: DESIGN CHOICE, safe; R57 does not
speak of it (log entry 14). -/
structure Bench where
  bytes : List (Nat × MF8)
  words : List (Nat × F32)
  deriving DecidableEq, Repr

/-- The value of `<src32>`; none for a name that no earlier line bound. -/
def namedWord (src : Named32) (c : Bench) : Option F32 :=
  match src with
  | .lit w => some w
  | .name n => c.words.lookup n

/-- The value of `<src8>`; none for a name that no earlier line bound. -/
def namedByte (src : Named8) (c : Bench) : Option MF8 :=
  match src with
  | .lit b => some b
  | .name n => c.bytes.lookup n

/-- What a line binds (R57, R58). A name that an earlier line of the same kind bound is bound anew, and later
lines see the later value: DESIGN CHOICE, safe; R57 does not speak of it (log entry 14). -/
def runLine (l : Line) (c : Bench) : Option Bench :=
  match l with
  | .encode n src => (namedWord src c).map fun w => { c with bytes := (n, encodeWord w) :: c.bytes }
  | .decode n src => (namedByte src c).map fun b => { c with words := (n, decodeByte b) :: c.words }
  | .rt32 n src => (namedWord src c).map fun w => { c with words := (n, roundTrip32 w) :: c.words }
  | .rt8 n src => (namedByte src c).map fun b => { c with bytes := (n, roundTrip8 b) :: c.bytes }

/-- Lines are evaluated top to bottom, so that a name is bound before it is used (R57). -/
def runLines : List Line → Bench → Option Bench
  | [], c => some c
  | l :: ls, c => (runLine l c).bind (runLines ls)

/-- The evaluations a line asks of the machine, as R58 writes the pseudo-operations out: `RT32` is `ENCODE` and
then `DECODE` of what `enc_out` showed, `RT8` is `DECODE` and then `ENCODE` of what `dec_out` showed. -/
def lineStimuli (l : Line) (c : Bench) : Option (List Stimulus) :=
  match l with
  | .encode _ src => (namedWord src c).map fun w => [.encode (.lit w)]
  | .decode _ src => (namedByte src c).map fun b => [.decode (.lit b)]
  | .rt32 _ src => (namedWord src c).map fun w => [.encode (.lit w), .decode .encOut]
  | .rt8 _ src => (namedByte src c).map fun b => [.decode (.lit b), .encode .decOut]

/-- The same pseudo-operations "in hardware" (R58, R119): connect the units and drive the free input once. A line
of one evaluation needs no connection and makes none. -/
def wiredStimuli (l : Line) (c : Bench) : Option (List Stimulus) :=
  match l with
  | .encode _ src => (namedWord src c).map fun w => [.encode (.lit w)]
  | .decode _ src => (namedByte src c).map fun b => [.decode (.lit b)]
  | .rt32 _ src => (namedWord src c).map fun w => [.connect .encToDec, .encode (.lit w)]
  | .rt8 _ src => (namedByte src c).map fun b => [.connect .decToEnc, .decode (.lit b)]

/-- What a line binds its name to, read from the port it observes. -/
def bindObserved (l : Line) (s : State) (c : Bench) : Bench :=
  match l with
  | .encode n _ => { c with bytes := (n, s.encOut) :: c.bytes }
  | .decode n _ => { c with words := (n, s.decOut) :: c.words }
  | .rt32 n _ => { c with words := (n, s.decOut) :: c.words }
  | .rt8 n _ => { c with bytes := (n, s.encOut) :: c.bytes }

end Sys2Proof.Machine
end

