-- ==== Sys2Proof/Safety.lean ====
section
/-! DEFINITION. The properties of states that statements are made of: the ports carry what the combinational
functions and the wire between the units say (spec/10_state.md R26, spec/70_reset_and_hazards.md R119), and two
states agree on a unit (spec/00_scope.md R3). -/

namespace Sys2Proof.Machine

/-- Every output port holds its unit's function of the input port (R26), and an input at the end of a wire holds
the value of the output at its other end (R119). -/
abbrev PortsSettled (s : State) : Prop :=
  s.encOut = encodeWord s.encIn ∧ s.decOut = decodeByte s.decIn ∧
  (s.wiring = .encToDec → s.decIn = s.encOut) ∧ (s.wiring = .decToEnc → s.encIn = s.decOut)

/-- The two states show the same values on the encoder's ports. -/
abbrev SameEnc (s t : State) : Prop := s.encIn = t.encIn ∧ s.encOut = t.encOut

/-- The two states show the same values on the decoder's ports. -/
abbrev SameDec (s t : State) : Prop := s.decIn = t.decIn ∧ s.decOut = t.decOut

/-- The instruction is an operation of the encoder unit: its operand stands on `enc_in` (R56). -/
abbrev OnEnc (i : Instr) : Prop := ∃ w, encode i = .onEncIn w

/-- The instruction is an operation of the decoder unit: its operand stands on `dec_in` (R56). -/
abbrev OnDec (i : Instr) : Prop := ∃ b, encode i = .onDecIn b

end Sys2Proof.Machine
end

