-- ==== Sys2Proof/Certificates/Slice0/Obligations.lean ====
section
/-! DEFINITION. The statements for the provers. What `driveEncIn` and `driveDecIn` leave in every field is
spelled out, by the connection between the units, in `EveryRowAgreesWithItsOperation` and
`DrivingAndConnecting`. A docstring names the rule of spec/ that the statement
formalises; where the rule is a decision of the spec or an inference the spec marks as its own, it says so. -/

open Sys2Proof Sys2Proof.Machine

/-! ## The machine -/

/-- The model's choice of a reset state (log entry 1; the spec gives no reset value, R27) obeys R26: both
outputs hold their units' functions of the inputs, the units are not connected, and nothing is asked for. -/
def Obligations.ResetPortsSettled : Prop :=
  PortsSettled State.reset ∧ State.reset.wiring = .apart ∧ State.reset.stim = []

/-- R26 (decision D2), R119 (decision D4): a step from a state in which every output holds its unit's function
of its input, and an input at the end of a wire the output at its other end, leads to such a state. An input
whose wire is taken away keeps its pattern (the model's choice, log entry 15). -/
def Obligations.StepKeepsPortsSettled : Prop :=
  ∀ s t : State, PortsSettled s → step s = .next t → PortsSettled t

/-- R101: no operation raises anything, there is no cause a stop could have, and no step stops. -/
def Obligations.NothingRaisesAnException : Prop :=
  (∀ (i : Instr) (s : State), ∃ t, exec i s = .next t) ∧
  (∀ s : State, ∃ t, step s = .next t) ∧
  (∀ _ : Fault, False)

/-- What a step is (R56, R57, R117, R119): with no stimulus left it changes nothing; a stimulus that drives an
input runs, on the state without it, the instruction that its operand decodes to; one that connects the units
does that. A placed word is the next operand. -/
def Obligations.StepRunsTheDecodedOperand : Prop :=
  (∀ s : State, s.stim = [] → step s = .next s) ∧
  (∀ (s : State) (src : Src32) (ts : List Stimulus), s.stim = .encode src :: ts →
    step s = exec (decode (.onEncIn (src32Value src s))) { s with stim := ts }) ∧
  (∀ (s : State) (src : Src8) (ts : List Stimulus), s.stim = .decode src :: ts →
    step s = exec (decode (.onDecIn (src8Value src s))) { s with stim := ts }) ∧
  (∀ (s : State) (c : Wiring) (ts : List Stimulus), s.stim = .connect c :: ts →
    step s = .next (connectUnits c { s with stim := ts })) ∧
  (∀ (s : State) (w : Nat),
    step (s.withFetchWord 32 w) = exec (decodeF32 (BitVec.ofNat 32 w)) s ∧
    step (s.withFetchWord 8 w) = exec (decodeMF8 (BitVec.ofNat 8 w)) s)

/-- R56, R59, R75, R26, R119: every row of the table, on every state and all fields (those outside a row's
condition too: log entry 5), completes, and does to its unit exactly what the whole operation does on the row's
operand. With the units apart all else is unchanged; a wire from the unit's output carries the result on; a wire
onto the driven input is gone (the model's choice, log entry 6). -/
def Obligations.EveryRowAgreesWithItsOperation : Prop :=
  ∀ (i : Instr) (s : State),
    (∀ w, encode i = .onEncIn w →
      (s.wiring = .apart → exec i s = .next { s with encIn := w, encOut := encodeWord w }) ∧
      (s.wiring = .encToDec → exec i s = .next { s with
        encIn := w, encOut := encodeWord w, decIn := encodeWord w, decOut := decodeByte (encodeWord w) }) ∧
      (s.wiring = .decToEnc → exec i s = .next { s with
        encIn := w, encOut := encodeWord w, wiring := .apart })) ∧
    (∀ b, encode i = .onDecIn b →
      (s.wiring = .apart → exec i s = .next { s with decIn := b, decOut := decodeByte b }) ∧
      (s.wiring = .encToDec → exec i s = .next { s with
        decIn := b, decOut := decodeByte b, wiring := .apart }) ∧
      (s.wiring = .decToEnc → exec i s = .next { s with
        decIn := b, decOut := decodeByte b, encIn := decodeByte b, encOut := encodeWord (decodeByte b) }))

/-- R26, R117, R122: every list of stimuli is used up in as many steps as it has entries, and the ports are
then settled if they were at the start; with nothing asked for, any number of steps changes nothing. -/
def Obligations.EveryStimulusListCompletes : Prop :=
  (∀ s : State, ∃ t : State, Host.Core.run Sys2Proof.core s.stim.length s = .next t ∧ t.stim = [] ∧
    (PortsSettled s → PortsSettled t)) ∧
  (∀ (n : Nat) (s : State), s.stim = [] → Host.Core.run Sys2Proof.core n s = .next s)

/-- Frame of the nine `ENCODE` rows and of the six `DECODE` rows (R3, R28, R119): `ENCODE`, `ENCODE.ZERO`,
`ENCODE.SUBNORMAL`, `ENCODE.INF`, `ENCODE.NAN`, `ENCODE.OVERFLOW`, `ENCODE.INRANGE`,
`ENCODE.UNDERFLOW_DENORMAL`, `ENCODE.UNDERFLOW_ZERO` leave the stimuli, and the decoder's ports unless `enc_out`
is wired to them, which then follow `enc_out`; `DECODE`, `DECODE.ZERO`, `DECODE.DENORMAL`, `DECODE.INF`,
`DECODE.NAN`, `DECODE.NORMAL` leave the stimuli, and the encoder's ports unless `dec_out` is wired to them. The
connection stays, unless it is a wire onto the driven input (log entry 6). There is no other state. -/
def Obligations.UnitFrames : Prop :=
  (∀ (i : Instr) (s t : State), OnEnc i → exec i s = .next t → t.stim = s.stim ∧
    (s.wiring ≠ .encToDec → SameDec s t) ∧
    (s.wiring = .encToDec → t.decIn = t.encOut ∧ t.decOut = decodeByte t.encOut) ∧
    t.wiring = if s.wiring = .decToEnc then .apart else s.wiring) ∧
  (∀ (i : Instr) (s t : State), OnDec i → exec i s = .next t → t.stim = s.stim ∧
    (s.wiring ≠ .decToEnc → SameEnc s t) ∧
    (s.wiring = .decToEnc → t.encIn = t.decOut ∧ t.encOut = encodeWord t.decOut) ∧
    t.wiring = if s.wiring = .encToDec then .apart else s.wiring)

/-- R3, R35, R111: the two units do not interact of themselves. An encoder row and a decoder row, each driving
its own input, give the same state in either order, and what a row shows on its unit's ports does not depend on
the state it starts in. -/
def Obligations.UnitsAreIndependent : Prop :=
  (∀ (i j : Instr) (s a b c d : State), OnEnc i → OnDec j →
    exec i s = .next a → exec j a = .next b → exec j s = .next c → exec i c = .next d → b = d) ∧
  (∀ (i : Instr) (s s' t t' : State), OnEnc i → exec i s = .next t → exec i s' = .next t' → SameEnc t t') ∧
  (∀ (i : Instr) (s s' t t' : State), OnDec i → exec i s = .next t → exec i s' = .next t' → SameDec t t')

/-! ## Operands: fields, rows, masks -/

/-- R40, R42: the fields of an operand, as slices and as numbers, and that they lose nothing. -/
def Obligations.FieldExtractionLosesNothing : Prop :=
  (∀ w : F32, w = f32Sign w ++ f32Exp w ++ f32Man w ∧
    (f32Sign w).toNat = w.toNat >>> 31 ∧
    (f32Exp w).toNat = (w.toNat >>> 23) &&& 0xFF ∧
    (f32Man w).toNat = w.toNat &&& 0x7FFFFF ∧
    (f32Sign w).getLsbD 0 = w.getLsbD 31 ∧
    (∀ i, i < 8 → (f32Exp w).getLsbD i = w.getLsbD (23 + i)) ∧
    (∀ i, i < 23 → (f32Man w).getLsbD i = w.getLsbD i)) ∧
  (∀ b : MF8, b = mf8Sign b ++ mf8Exp b ++ mf8Man b ∧
    (mf8Sign b).toNat = b.toNat >>> 7 ∧
    (mf8Exp b).toNat = (b.toNat >>> 4) &&& 7 ∧
    (mf8Man b).toNat = b.toNat &&& 15 ∧
    (mf8Sign b).getLsbD 0 = b.getLsbD 7 ∧
    (∀ i, i < 3 → (mf8Exp b).getLsbD i = b.getLsbD (4 + i)) ∧
    (∀ i, i < 4 → (mf8Man b).getLsbD i = b.getLsbD i))

/-- R43, R49: the number an assembled pattern is, and the carry of a magnitude code from the mantissa into
the exponent field. -/
def Obligations.AssemblyPlacesTheFields : Prop :=
  (∀ (s : Sign) (k : Nat), k ≤ 127 →
    mf8OfMag s k = s ++ BitVec.ofNat 7 k ∧ (mf8OfMag s k).toNat = 128 * s.toNat + k) ∧
  (∀ (s : Sign) (e : BitVec 3) (m : BitVec 4),
    mf8Word s e m = mf8OfMag s (16 * e.toNat + m.toNat)) ∧
  (∀ (s : Sign) (e : Nat), e ≤ 6 →
    mf8OfMag s (16 * e + 15 + 1) = mf8Word s (BitVec.ofNat 3 (e + 1)) 0) ∧
  (∀ (S : Sign) (E F : Nat), E ≤ 255 → F < 2 ^ 23 →
    f32OfFields S E F = S ++ BitVec.ofNat 8 E ++ BitVec.ofNat 23 F ∧
    (f32OfFields S E F).toNat = 2 ^ 31 * S.toNat + 2 ^ 23 * E + F)

/-- Decode and encode agree (R56): a well-formed class row is the row its operand decodes to, with every
field at every value; and running the row an instruction's operand decodes to is running the instruction,
for the two whole-operation rows too. -/
def Obligations.DecodeOfEncodeIsTheInstruction : Prop :=
  (∀ i : Instr, i.wellFormed = true → isClassRow i = true → decode (encode i) = i) ∧
  (∀ (i : Instr) (s : State), exec (decode (encode i)) s = exec i s)

/-- R54, R56: every operand decodes to exactly one class row, well formed, that stands for that operand. -/
def Obligations.EveryOperandIsOneRow : Prop :=
  ∀ p : Operand, encode (decode p) = p ∧ (decode p).wellFormed = true ∧ isClassRow (decode p) = true ∧
    ∀ i : Instr, i.wellFormed = true → isClassRow i = true → encode i = p → i = decode p

/-- R56: the masks of spec/opcode_table.json, with each row's extra condition, select exactly the class the
decoder finds, and the pairs of a range row are disjoint (decision D19). -/
def Obligations.TableMasksSelectTheRow : Prop :=
  (∀ (c : F32Class) (w : F32), f32RowMatches c w = true ↔ f32ClassOf w = c) ∧
  (∀ (c : MF8Class) (b : MF8), mf8RowMatches c b = true ↔ mf8ClassOf b = c) ∧
  (∀ c : F32Class, (f32Cover c).Pairwise fun p q => ∀ w : F32, ¬ (w &&& p.1 = p.2 ∧ w &&& q.1 = q.2)) ∧
  (∀ c : MF8Class, (mf8Cover c).Pairwise fun p q => ∀ b : MF8, ¬ (b &&& p.1 = p.2 ∧ b &&& q.1 = q.2))

/-- Words written out from the table's encodings decode to their rows; a width no port has is refused. -/
def Obligations.WrittenWordsDecode : Prop :=
  decodeTableWord 32 0b1_00000000_00000000000000000000000 = some (.encodeZero 1) ∧
  decodeTableWord 32 0b0_11111111_00000000000000000000001 = some (.encodeNan 0 1) ∧
  decodeTableWord 32 0b0_10000011_00000000000000000000000 = some (.encodeOverflow 0 131 0) ∧
  decodeTableWord 32 0b0_01111111_10000000000000000000000 = some (.encodeInrange 0 127 0x400000) ∧
  decodeTableWord 8 0b1_000_1100 = some (.decodeDenormal 1 12) ∧
  decodeTableWord 8 0b0_011_1000 = some (.decodeNormal 0 3 8) ∧
  decodeTableWord 16 0 = none

/-! ## The rows of `ENCODE` -/

/-- R61: zero gives the zero of the same sign. -/
def Obligations.EncodeZeroGivesSignedZero : Prop :=
  ∀ (S : Sign) (s : State),
    exec (.encodeZero S) s = .next (driveEncIn (f32Word S 0 0) (S ++ 0x00#7) s) ∧
    exec (.encode (f32Word S 0 0)) s = .next (driveEncIn (f32Word S 0 0) (S ++ 0x00#7) s) ∧
    encodeWord 0x00000000 = 0x00 ∧ encodeWord 0x80000000 = 0x80

/-- R62 (decision D10): a subnormal is flushed to the zero of the same sign. -/
def Obligations.EncodeSubnormalFlushes : Prop :=
  ∀ (S : Sign) (F : BitVec 23) (s : State), F ≠ 0 →
    exec (.encodeSubnormal S F) s = .next (driveEncIn (f32Word S 0 F) (S ++ 0x00#7) s) ∧
    exec (.encode (f32Word S 0 F)) s = .next (driveEncIn (f32Word S 0 F) (S ++ 0x00#7) s)

/-- R63: infinity gives exponent field 7 with mantissa 0; and only an operand with `E = 255`, infinity or
NaN, gives exponent field 7. -/
def Obligations.EncodeInfinity : Prop :=
  (∀ (S : Sign) (s : State),
    exec (.encodeInf S) s = .next (driveEncIn (f32Word S 0xFF 0) (S ++ 0b111#3 ++ 0b0000#4) s) ∧
    exec (.encode (f32Word S 0xFF 0)) s =
      .next (driveEncIn (f32Word S 0xFF 0) (S ++ 0b111#3 ++ 0b0000#4) s)) ∧
  (∀ w : F32, mf8Exp (encodeWord w) = 7 → f32ClassOf w = .inf ∨ f32ClassOf w = .nan) ∧
  encodeWord 0x7F800000 = 0x70 ∧ encodeWord 0xFF800000 = 0xF0

/-- R64 (decision D7, log entry 2: the payload `1111` is the spec's own choice): every NaN of a sign gives one
byte. -/
def Obligations.EncodeNanGivesTheFixedPayload : Prop :=
  (∀ (S : Sign) (F : BitVec 23) (s : State), F ≠ 0 →
    exec (.encodeNan S F) s =
      .next (driveEncIn (f32Word S 0xFF F) (S ++ 0b111#3 ++ 0b1111#4) s) ∧
    exec (.encode (f32Word S 0xFF F)) s =
      .next (driveEncIn (f32Word S 0xFF F) (S ++ 0b111#3 ++ 0b1111#4) s)) ∧
  (∀ (np : BitVec 4) (S : Sign) (F : BitVec 23), F ≠ 0 →
    encodeWith np (f32Word S 0xFF F) = S ++ 0b111#3 ++ np)

/-- R7 (decision D7): the payload is the only thing a block built with another payload changes, and only for
NaN operands. -/
def Obligations.PayloadMattersOnlyForNan : Prop :=
  ∀ (np np' : BitVec 4) (w : F32),
    (f32ClassOf w ≠ .nan → encodeWith np w = encodeWith np' w) ∧
    (f32ClassOf w = .nan → encodeWith np w = f32Sign w ++ 0b111#3 ++ np)

/-- R65 (decision D13, spec/90_conflicts.md C1): a magnitude of 16 or more saturates to `0x6F`. -/
def Obligations.EncodeOverflowSaturates : Prop :=
  ∀ (S : Sign) (E : BitVec 8) (F : BitVec 23) (s : State), 131 ≤ E.toNat → E.toNat ≤ 254 →
    exec (.encodeOverflow S E F) s = .next (driveEncIn (f32Word S E F) (S ++ 0x6F#7) s) ∧
    exec (.encode (f32Word S E F)) s = .next (driveEncIn (f32Word S E F) (S ++ 0x6F#7) s)

/-- R66: an in-range operand is truncated to `k0 = 16 * e' + top4` and rounded by its round bit alone to
`k1 = k0 + rbit`, the carry going into the exponent field; `k1` is the result unless it is 112. -/
def Obligations.EncodeInrangeRoundsWithCarry : Prop :=
  (encodeWord 0x3FC00000 = 0x38 ∧ encodeWord 0x3FC40000 = 0x39 ∧ encodeWord 0x3FFC0000 = 0x40 ∧
    encodeWord 0x41000000 = 0x60) ∧
  ∀ (S : Sign) (E : BitVec 8) (F : BitVec 23) (s : State), 125 ≤ E.toNat → E.toNat ≤ 130 →
    let e' := E.toNat - 124
    let top := F.toNat >>> 19
    let rb := (F.toNat >>> 18) &&& 1
    let k := 16 * e' + top + rb
    16 ≤ 16 * e' + top ∧ 16 * e' + top ≤ 111 ∧ 16 ≤ k ∧ k ≤ 112 ∧
    (top = 0b1111 → rb = 1 → k = 16 * (e' + 1)) ∧
    (k ≠ 112 →
      exec (.encodeInrange S E F) s =
        .next (driveEncIn (f32Word S E F) (S ++ BitVec.ofNat 7 k) s) ∧
      exec (.encode (f32Word S E F)) s =
        .next (driveEncIn (f32Word S E F) (S ++ BitVec.ofNat 7 k) s))

/-- R67 (decision D12, spec/90_conflicts.md C2): the carry reaches exponent field 7 exactly from
`0x417C0000` to `0x417FFFFF`, and the result is then the largest finite code. -/
def Obligations.EncodeInrangeSaturatesAfterCarry : Prop :=
  ∀ (S : Sign) (E : BitVec 8) (F : BitVec 23) (s : State), 125 ≤ E.toNat → E.toNat ≤ 130 →
    (k1 E F = 0x70 ↔ E.toNat = 130 ∧ 0x7C0000 ≤ F.toNat) ∧
    (k1 E F = 0x70 ↔
      0x417C0000 ≤ magBits (f32Word S E F) ∧ magBits (f32Word S E F) ≤ 0x417FFFFF) ∧
    (k1 E F = 0x70 →
      exec (.encodeInrange S E F) s = .next (driveEncIn (f32Word S E F) (S ++ 0x6F#7) s) ∧
      exec (.encode (f32Word S E F)) s = .next (driveEncIn (f32Word S E F) (S ++ 0x6F#7) s))

/-- R68 (decision D9): below the in-range exponents the significand is shifted right by `d = 125 - E` and
rounded by the highest discarded bit; the table of R68, row by row. -/
def Obligations.EncodeUnderflowShiftsAndRounds : Prop :=
  ∀ (S : Sign) (E : BitVec 8) (F : BitVec 23) (s : State), 120 ≤ E.toNat → E.toNat ≤ 124 →
    let d := 125 - E.toNat
    let sig := 16 + F.toNat >>> 19
    let k := sig >>> d + ((sig >>> (d - 1)) &&& 1)
    exec (.encodeUnderflowDenormal S E F) s =
      .next (driveEncIn (f32Word S E F) (S ++ BitVec.ofNat 7 k) s) ∧
    exec (.encode (f32Word S E F)) s =
      .next (driveEncIn (f32Word S E F) (S ++ BitVec.ofNat 7 k) s) ∧
    (E.toNat = 124 → k = 8 + F.toNat / 2 ^ 20 + F.toNat / 2 ^ 19 % 2 ∧ 8 ≤ k ∧ k ≤ 16) ∧
    (E.toNat = 123 → k = 4 + F.toNat / 2 ^ 21 + F.toNat / 2 ^ 20 % 2 ∧ 4 ≤ k ∧ k ≤ 8) ∧
    (E.toNat = 122 → k = 2 + F.toNat / 2 ^ 22 + F.toNat / 2 ^ 21 % 2 ∧ 2 ≤ k ∧ k ≤ 4) ∧
    (E.toNat = 121 → k = 1 + F.toNat / 2 ^ 22 ∧ 1 ≤ k ∧ k ≤ 2) ∧
    (E.toNat = 120 → k = 1)

/-- R70 (decision D11): the denormal mantissa carries into the smallest normal exactly from `0x3E780000` to
`0x3E7FFFFF`. -/
def Obligations.DenormalCarryGivesSmallestNormal : Prop :=
  ∀ (S : Sign) (E : BitVec 8) (F : BitVec 23) (s : State), 120 ≤ E.toNat → E.toNat ≤ 124 →
    (retained E F + highestDiscarded E F = 16 ↔ E.toNat = 124 ∧ 0x780000 ≤ F.toNat) ∧
    (retained E F + highestDiscarded E F = 16 ↔
      0x3E780000 ≤ magBits (f32Word S E F) ∧ magBits (f32Word S E F) ≤ 0x3E7FFFFF) ∧
    (E.toNat = 124 → 0x780000 ≤ F.toNat →
      exec (.encodeUnderflowDenormal S E F) s =
        .next (driveEncIn (f32Word S E F) (S ++ 0b001#3 ++ 0b0000#4) s))

/-- R69 (decision D9): a normalized operand below 2^-7 gives the zero of the same sign. -/
def Obligations.EncodeUnderflowZeroGivesSignedZero : Prop :=
  ∀ (S : Sign) (E : BitVec 8) (F : BitVec 23) (s : State), 1 ≤ E.toNat → E.toNat ≤ 119 →
    exec (.encodeUnderflowZero S E F) s = .next (driveEncIn (f32Word S E F) (S ++ 0x00#7) s) ∧
    exec (.encode (f32Word S E F)) s = .next (driveEncIn (f32Word S E F) (S ++ 0x00#7) s) ∧
    retained E F = 0 ∧ highestDiscarded E F = 0

/-! ## The rows of `DECODE` -/

/-- R77: zero gives the zero of the same sign. -/
def Obligations.DecodeZeroGivesSignedZero : Prop :=
  ∀ (g : Sign) (s : State),
    exec (.decodeZero g) s = .next (driveDecIn (mf8Word g 0 0) (g ++ 0x00#8 ++ 0#23) s) ∧
    exec (.decode (mf8Word g 0 0)) s = .next (driveDecIn (mf8Word g 0 0) (g ++ 0x00#8 ++ 0#23) s) ∧
    decodeByte 0x00 = 0x00000000 ∧ decodeByte 0x80 = 0x80000000

/-- R78: a denormal is normalised by its highest set bit `p`: the exponent field is `121 + p`, the bits
below `p` are left-aligned in the mantissa field, the result is normalized and its value is `m * 2^-6`. The
list is the table of R78, `m` from 1 to 15. -/
def Obligations.DecodeDenormalNormalises : Prop :=
  (∀ (g : Sign) (m : BitVec 4) (p : Nat) (s : State), 2 ^ p ≤ m.toNat → m.toNat < 2 ^ (p + 1) →
    let y : F32 := g ++ BitVec.ofNat 8 (127 - 3 - (3 - p)) ++ BitVec.ofNat 23 ((m.toNat - 2 ^ p) <<< (23 - p))
    exec (.decodeDenormal g m) s = .next (driveDecIn (mf8Word g 0 m) y s) ∧
    exec (.decode (mf8Word g 0 m)) s = .next (driveDecIn (mf8Word g 0 m) y s) ∧
    127 - 3 - (3 - p) = 121 + p ∧ 1 ≤ (f32Exp y).toNat ∧ (f32Exp y).toNat ≤ 254 ∧
    val32 y = some (signFactor g * m.toNat * (2 : ℚ) ^ (-6 : ℤ))) ∧
  (List.range 15).map (fun n => decodeByte (BitVec.ofNat 8 (n + 1))) =
    [0x3C800000, 0x3D000000, 0x3D400000, 0x3D800000, 0x3DA00000, 0x3DC00000, 0x3DE00000, 0x3E000000,
     0x3E100000, 0x3E200000, 0x3E300000, 0x3E400000, 0x3E500000, 0x3E600000, 0x3E700000] ∧
  decodeByte 0x81 = 0xBC800000

/-- R79: infinity gives infinity of the same sign. -/
def Obligations.DecodeInfinity : Prop :=
  ∀ (g : Sign) (s : State),
    exec (.decodeInf g) s = .next (driveDecIn (mf8Word g 7 0) (g ++ 0xFF#8 ++ 0#23) s) ∧
    exec (.decode (mf8Word g 7 0)) s = .next (driveDecIn (mf8Word g 7 0) (g ++ 0xFF#8 ++ 0#23) s) ∧
    decodeByte 0x70 = 0x7F800000 ∧ decodeByte 0xF0 = 0xFF800000

/-- R80 (decision D8: the placement by 19 is the spec's own choice): a NaN keeps its sign and its mantissa,
left-aligned, and is a NaN of the float32 format. -/
def Obligations.DecodeNanForwardsThePayload : Prop :=
  ∀ (g : Sign) (m : BitVec 4) (s : State), m ≠ 0 →
    exec (.decodeNan g m) s = .next (driveDecIn (mf8Word g 7 m) (g ++ 0xFF#8 ++ m ++ 0#19) s) ∧
    exec (.decode (mf8Word g 7 m)) s =
      .next (driveDecIn (mf8Word g 7 m) (g ++ 0xFF#8 ++ m ++ 0#19) s) ∧
    f32ClassOf (g ++ 0xFF#8 ++ m ++ 0#19) = .nan

/-- R81: a normal gives the exponent field `e - 3 + 127` and the mantissa shifted left by 19. -/
def Obligations.DecodeNormalRebiases : Prop :=
  (decodeByte 0x38 = 0x3FC00000 ∧ decodeByte 0x60 = 0x41000000 ∧ decodeByte 0xEF = 0xC1780000 ∧
    decodeByte 0x10 = 0x3E800000 ∧ decodeByte 0x6F = 0x41780000) ∧
  ∀ (g : Sign) (e : BitVec 3) (m : BitVec 4) (s : State), 1 ≤ e.toNat → e.toNat ≤ 6 →
    let y : F32 := g ++ BitVec.ofNat 8 (e.toNat + 124) ++ BitVec.ofNat 23 (m.toNat <<< 19)
    exec (.decodeNormal g e m) s = .next (driveDecIn (mf8Word g e m) y s) ∧
    exec (.decode (mf8Word g e m)) s = .next (driveDecIn (mf8Word g e m) y s) ∧
    ((e.toNat : Int) - 3) + 127 = (f32Exp y).toNat ∧ 125 ≤ (f32Exp y).toNat ∧ (f32Exp y).toNat ≤ 130

/-- R82: the word is reassembled from a sign and two fields that fit, with no carry between fields. -/
def Obligations.DecoderFieldsFit : Prop :=
  ∀ b : MF8,
    let p := decodeFields (mf8Exp b) (mf8Man b)
    p.1 ≤ 255 ∧ p.2 < 2 ^ 23 ∧
    decodeByte b = mf8Sign b ++ BitVec.ofNat 8 p.1 ++ BitVec.ofNat 23 p.2 ∧
    (decodeByte b).toNat = 2 ^ 31 * (mf8Sign b).toNat + 2 ^ 23 * p.1 + p.2

/-! ## Laws of the functions -/

/-- R60, R76: the sign is copied in every case, and takes no part in the class or the magnitude code. -/
def Obligations.SignIsCopied : Prop :=
  (∀ (np : BitVec 4) (w : F32), (encodeWith np w).getLsbD 7 = w.getLsbD 31) ∧
  (∀ (S S' : Sign) (E : BitVec 8) (F : BitVec 23), f32ClassOf (f32Word S E F) = f32ClassOf (f32Word S' E F)) ∧
  (∀ (np : BitVec 4) (S S' : Sign) (E : BitVec 8) (F : BitVec 23),
    mf8Mag (encodeWith np (f32Word S E F)) = mf8Mag (encodeWith np (f32Word S' E F))) ∧
  (∀ b : MF8, (decodeByte b).getLsbD 31 = b.getLsbD 7) ∧
  encodeWord 0xBF800000 = 0xB0 ∧ encodeWord 0x3F800000 = 0x30 ∧
  decodeByte 0xB0 = 0xBF800000 ∧ decodeByte 0x30 = 0x3F800000

/-- R94 (the spec marks it derived): flipping the sign bit of the operand flips that of the result. -/
def Obligations.SignSymmetry : Prop :=
  (∀ (np : BitVec 4) (w : F32), encodeWith np (w ^^^ 0x80000000) = encodeWith np w ^^^ 0x80) ∧
  (∀ b : MF8, decodeByte (b ^^^ 0x80) = decodeByte b ^^^ 0x80000000)

/-- R71 (derived): the ranges of the encoder's arithmetic. -/
def Obligations.EncoderArithmeticNeverWraps : Prop :=
  ∀ (E : BitVec 8) (F : BitVec 23),
    (1 ≤ E.toNat → E.toNat ≤ 254 →
      rebiasedExp E = (E.toNat : Int) - 124 ∧ -123 ≤ rebiasedExp E ∧ rebiasedExp E ≤ 130) ∧
    (f32Class E F = .inrange → 16 ≤ k1 E F ∧ k1 E F ≤ 112) ∧
    (f32Class E F = .underflowDenormal →
      1 ≤ shiftAmount E ∧ shiftAmount E ≤ 5 ∧ retained E F + highestDiscarded E F ≤ 16) ∧
    (f32Class E F = .underflowZero →
      6 ≤ shiftAmount E ∧ shiftAmount E ≤ 124 ∧ retained E F = 0 ∧ highestDiscarded E F = 0)

/-- R83 (derived): the decoder's sums and shifts stay in range and no bit below the forwarded ones is set. -/
def Obligations.DecoderIsExactOnBits : Prop :=
  ∀ b : MF8,
    (mf8ClassOf b = .normal → 125 ≤ (f32Exp (decodeByte b)).toNat ∧ (f32Exp (decodeByte b)).toNat ≤ 130) ∧
    (mf8ClassOf b = .denormal → 121 ≤ (f32Exp (decodeByte b)).toNat ∧ (f32Exp (decodeByte b)).toNat ≤ 124 ∧
      (f32Man (decodeByte b)).toNat % 2 ^ (23 - hibit (mf8Man b)) = 0) ∧
    (f32Man (decodeByte b)).toNat % 2 ^ 19 = 0 ∧
    (mf8ClassOf b = .zero → f32Man (decodeByte b) = 0)

/-- R73 (derived): which bits of the operand the result depends on. -/
def Obligations.EncodeDependsOnTopBits : Prop :=
  ∀ (np : BitVec 4) (w w' : F32),
    (f32Sign w = f32Sign w' → f32Exp w = f32Exp w' → top4 (f32Man w) = top4 (f32Man w') →
      rbit (f32Man w) = rbit (f32Man w') → (f32Man w = 0 ↔ f32Man w' = 0) →
      encodeWith np w = encodeWith np w') ∧
    (f32Sign w = f32Sign w' → f32Exp w = 0 → f32Exp w' = 0 → encodeWith np w = encodeWith np w') ∧
    (f32Sign w = f32Sign w' → f32Exp w = 0xFF → f32Exp w' = 0xFF → (f32Man w = 0 ↔ f32Man w' = 0) →
      encodeWith np w = encodeWith np w') ∧
    (f32Sign w = f32Sign w' → f32Exp w = f32Exp w' → f32ClassOf w = .inrange →
      top4 (f32Man w) = top4 (f32Man w') → rbit (f32Man w) = rbit (f32Man w') →
      encodeWith np w = encodeWith np w') ∧
    (f32Sign w = f32Sign w' → f32ClassOf w = .overflow → f32ClassOf w' = .overflow →
      encodeWith np w = encodeWith np w') ∧
    (f32Sign w = f32Sign w' → f32ClassOf w = .underflowZero → f32ClassOf w' = .underflowZero →
      encodeWith np w = encodeWith np w') ∧
    (f32Sign w = f32Sign w' → f32Exp w = f32Exp w' → f32ClassOf w = .underflowDenormal →
      top4 (f32Man w) = top4 (f32Man w') → encodeWith np w = encodeWith np w') ∧
    (w.toNat >>> 18 = w'.toNat >>> 18 → f32Exp w ≠ 0xFF → f32Exp w' ≠ 0xFF →
      encodeWith np w = encodeWith np w')

/-- R74 (derived; the count rests on the payload `1111`, decision D7, log entry 2): the bytes the encoder
gives. -/
def Obligations.RangeOfEncode : Prop :=
  (∀ w : F32, mf8Mag (encodeWord w) = 0x70 ↔ f32ClassOf w = .inf) ∧
  (∀ w : F32, mf8Mag (encodeWord w) = 0x7F ↔ f32ClassOf w = .nan) ∧
  (∀ w : F32, mf8Exp (encodeWord w) = 7 ↔ f32Exp w = 0xFF) ∧
  (∀ b : MF8, (∃ w : F32, encodeWord w = b) ↔ ((mf8Mag b).toNat ≤ 0x70 ∨ (mf8Mag b).toNat = 0x7F)) ∧
  (List.range 256).countP (fun n => n % 128 ≤ 0x70 || n % 128 == 0x7F) = 228

/-- R92 (derived): the class and the result code by the pattern `w[30:0]`. -/
def Obligations.ThresholdsOfEncode : Prop :=
  ∀ w : F32,
    let n := magBits w
    let k := (mf8Mag (encodeWord w)).toNat
    let c := f32ClassOf w
    (n = 0 → c = .zero ∧ k = 0) ∧
    (0x00000001 ≤ n → n ≤ 0x007FFFFF → c = .subnormal ∧ k = 0) ∧
    (0x00800000 ≤ n → n ≤ 0x3BFFFFFF → c = .underflowZero ∧ k = 0) ∧
    (0x3C000000 ≤ n → n ≤ 0x3E77FFFF → c = .underflowDenormal ∧ 0x01 ≤ k ∧ k ≤ 0x0F) ∧
    (0x3E780000 ≤ n → n ≤ 0x3E7FFFFF → c = .underflowDenormal ∧ k = 0x10) ∧
    (0x3E800000 ≤ n → n ≤ 0x417BFFFF → c = .inrange ∧ 0x10 ≤ k ∧ k ≤ 0x6F) ∧
    (0x417C0000 ≤ n → n ≤ 0x417FFFFF → c = .inrange ∧ k = 0x6F) ∧
    (0x41800000 ≤ n → n ≤ 0x7F7FFFFF → c = .overflow ∧ k = 0x6F) ∧
    (n = 0x7F800000 → c = .inf ∧ k = 0x70) ∧
    (0x7F800001 ≤ n → c = .nan ∧ k = 0x7F)

/-- R89: infinity is kept in both directions with its sign, and no finite operand becomes infinite. -/
def Obligations.InfinityIsReserved : Prop :=
  (∀ w : F32, encodeWord w = 0x70 ↔ w = 0x7F800000) ∧
  (∀ w : F32, encodeWord w = 0xF0 ↔ w = 0xFF800000) ∧
  decodeByte 0x70 = 0x7F800000 ∧ decodeByte 0xF0 = 0xFF800000 ∧
  roundTrip32 0x7F800000 = 0x7F800000 ∧ roundTrip32 0xFF800000 = 0xFF800000 ∧
  roundTrip8 0x70 = 0x70 ∧ roundTrip8 0xF0 = 0xF0

/-- R99 (derived): exponent field 7 comes from `E = 255` alone and gives `E = 255` alone, infinity and NaN
kept apart; and `1.0e10` saturates with its sign. -/
def Obligations.SpecialOperandsStaySpecial : Prop :=
  (∀ (np : BitVec 4) (w : F32), np ≠ 0 →
    (mf8Exp (encodeWith np w) = 7 ↔ f32Exp w = 0xFF) ∧
    (f32Exp w = 0xFF → (mf8Man (encodeWith np w) = 0 ↔ f32Man w = 0))) ∧
  (∀ b : MF8, (f32Exp (decodeByte b) = 0xFF ↔ mf8Exp b = 7) ∧
    (mf8Exp b = 7 → (f32Man (decodeByte b) = 0 ↔ mf8Man b = 0))) ∧
  encodeWord 0x501502F9 = 0x6F ∧ encodeWord 0xD01502F9 = 0xEF

/-- R90 (rests on decisions D9 and D10): float32 subnormals are flushed; a normalized operand below 0.25
becomes a denormal, or the smallest normal by rounding, down to 2^-7 and zero below that; the decoder never
gives a float32 subnormal; both zeros keep their sign. -/
def Obligations.SubnormalsAndZeros : Prop :=
  (∀ w : F32, f32ClassOf w = .subnormal → mf8Mag (encodeWord w) = 0) ∧
  (∀ (w : F32) (x : ℚ), f32ClassOf w ≠ .zero → f32ClassOf w ≠ .subnormal → val32 w = some x →
    ((2 : ℚ) ^ (-7 : ℤ) ≤ |x| → |x| < 1 / 4 → 1 ≤ (mf8Mag (encodeWord w)).toNat ∧
      (mf8Mag (encodeWord w)).toNat ≤ 0x10) ∧
    (|x| < (2 : ℚ) ^ (-7 : ℤ) → mf8Mag (encodeWord w) = 0)) ∧
  (∀ b : MF8, f32ClassOf (decodeByte b) ≠ .subnormal) ∧
  (∀ b : MF8, mf8ClassOf b = .denormal → 1 ≤ (f32Exp (decodeByte b)).toNat ∧
    (f32Exp (decodeByte b)).toNat ≤ 254) ∧
  encodeWord 0x00000000 = 0x00 ∧ encodeWord 0x80000000 = 0x80 ∧
  decodeByte 0x00 = 0x00000000 ∧ decodeByte 0x80 = 0x80000000

/-! ## Values -/

/-- R53 (derived): the values its table lists. -/
def Obligations.ValuesOfNotableBytes : Prop :=
  val8 0x01 = some (1 / 64) ∧ val8 0x0F = some (15 / 64) ∧ val8 0x10 = some (1 / 4) ∧
  val8 0x30 = some 1 ∧ val8 0x6F = some (31 / 2) ∧ val8 0x70 = none ∧ val8 0x7F = none

/-- R85 (derived): the value set. -/
def Obligations.ValueSetIsStrictlyIncreasing : Prop :=
  valueSet 0 = 0 ∧
  (∀ k, 1 ≤ k → k ≤ 31 → valueSet k = k / 64) ∧
  (∀ e m : Nat, 1 ≤ e → e ≤ 6 → m ≤ 15 →
    valueSet (16 * e + m) = (2 : ℚ) ^ ((e : ℤ) - 3) * (1 + (m : ℚ) / 16) ∧
    valueSet (16 * e + m) = (16 + (m : ℚ)) * (2 : ℚ) ^ ((e : ℤ) - 7)) ∧
  (∀ j k, j < k → k ≤ 0x6F → valueSet j < valueSet k) ∧
  valueSet 0x6F = 31 / 2 ∧
  (∀ k, k ≤ 0x6F → ∃ w : F32, val32 w = some (valueSet k))

/-- R84 (derived): the decoder is injective, exact on values, and strictly increasing on the finite
non-negative bytes, as words and as values; its results by class. -/
def Obligations.DecodeIsExact : Prop :=
  (∀ b b' : MF8, decodeByte b = decodeByte b' → b = b') ∧
  (∀ b : MF8, mf8Exp b ≠ 7 → val32 (decodeByte b) = val8 b) ∧
  (∀ b b' : MF8, b.toNat < b'.toNat → b'.toNat ≤ 0x6F →
    (decodeByte b).toNat < (decodeByte b').toNat ∧
    valueSet b.toNat < valueSet b'.toNat) ∧
  (∀ b : MF8, f32ClassOf (decodeByte b) = .zero ↔ mf8ClassOf b = .zero) ∧
  (∀ b : MF8, f32ClassOf (decodeByte b) = .inf ↔ mf8ClassOf b = .inf) ∧
  (∀ b : MF8, f32ClassOf (decodeByte b) = .nan ↔ mf8ClassOf b = .nan)

/-- R97 (derived; rests on decisions D9, D11, D12, D13): for every finite operand the code is the largest
`k` up to `0x6F` with `k = 0` or the mid-point of `V[k-1]` and `V[k]` not above the operand's magnitude. -/
def Obligations.EncodeTakesTheLargestCodeAtOrBelow : Prop :=
  ∀ (np : BitVec 4) (w : F32) (x : ℚ), val32 w = some x →
    let k := (mf8Mag (encodeWith np w)).toNat
    (encodeWith np w).getLsbD 7 = w.getLsbD 31 ∧
    k ≤ 0x6F ∧ (k = 0 ∨ valueMidpoint k ≤ |x|) ∧
    (∀ j, k < j → j ≤ 0x6F → |x| < valueMidpoint j)

/-- R86, R97 (rests on decisions D9, D11, D12, D13): rounding is to nearest with ties away from zero: no
value of the set is nearer to the operand's magnitude than the result, and of two equally near the result is
the larger. Magnitudes above 15.5 give 15.5 and those below 2^-7 give 0. The tie 1.53125 goes to the odd code. -/
def Obligations.EncodeRoundsToNearestTiesAway : Prop :=
  (∀ (np : BitVec 4) (w : F32) (x : ℚ), val32 w = some x →
    let k := (mf8Mag (encodeWith np w)).toNat
    k ≤ 0x6F ∧
    (∀ j, j ≤ 0x6F → j ≠ k →
      |(|x|) - valueSet k| < |(|x|) - valueSet j| ∨
      (|(|x|) - valueSet k| = |(|x|) - valueSet j| ∧ valueSet j < valueSet k)) ∧
    (31 / 2 < |x| → k = 0x6F) ∧ (|x| < (2 : ℚ) ^ (-7 : ℤ) → k = 0)) ∧
  val32 0x3FC40000 = some (valueMidpoint 0x39) ∧ encodeWord 0x3FC40000 = 0x39 ∧ encodeWord 0xBFC40000 = 0xB9

/-- R97 (derived): every mid-point is a float32 value, and its pattern is the smallest positive operand that
gives the code. -/
def Obligations.MidpointIsTheSmallestOperand : Prop :=
  ∀ k, 1 ≤ k → k ≤ 0x6F →
    ∃ w : F32, f32Sign w = 0 ∧ val32 w = some (valueMidpoint k) ∧ encodeWord w = BitVec.ofNat 8 k ∧
      ∀ v : F32, f32Sign v = 0 → encodeWord v = BitVec.ofNat 8 k → w.toNat ≤ v.toNat

/-- R98 (derived): on the non-negative finite patterns and infinity, encoding and the round trip keep the
order of the patterns. -/
def Obligations.EncodeIsMonotone : Prop :=
  ∀ w w' : F32, w.toNat ≤ w'.toNat → w'.toNat ≤ 0x7F800000 →
    (encodeWord w).toNat ≤ (encodeWord w').toNat ∧ (roundTrip32 w).toNat ≤ (roundTrip32 w').toNat

/-! ## Compositions -/

/-- R95 (derived): encoding a decoded byte gives it back, but for a NaN, which gets the encoder's payload. -/
def Obligations.EncodeAfterDecode : Prop :=
  ∀ (np : BitVec 4) (b : MF8),
    (mf8ClassOf b ≠ .nan → encodeWith np (decodeByte b) = b) ∧
    (mf8ClassOf b = .nan → encodeWith np (decodeByte b) = mf8Sign b ++ 0b111#3 ++ np)

/-- R96 (derived): decoding an encoded word gives it back for every word that a byte other than a NaN decodes
to; a NaN word becomes the NaN of the fixed payload and the same sign; and the round trip is idempotent on
every word. -/
def Obligations.RoundTripIsIdempotent : Prop :=
  (∀ b : MF8, mf8ClassOf b ≠ .nan → roundTrip32 (decodeByte b) = decodeByte b) ∧
  (∀ b : MF8, mf8ClassOf b = .nan → roundTrip32 (decodeByte b) = mf8Sign b ++ 0x7FF80000#31) ∧
  (∀ w : F32, roundTrip32 (roundTrip32 w) = roundTrip32 w)

/-- R58 (decision D18): `RT32` written out as two evaluations, `dec_in` driven with what `enc_out` showed, and
`RT8` as two evaluations, `enc_in` driven with what `dec_out` showed, on the machine. Each input is driven by the
environment, so the units are apart after it (log entry 6). -/
def Obligations.ChainedUnitsCompose : Prop :=
  (∀ (s : State) (w : F32) (ts : List Stimulus),
    Host.Core.run Sys2Proof.core 2 { s with stim := .encode (.lit w) :: .decode .encOut :: ts } =
      .next { encIn := w, encOut := encodeWord w, decIn := encodeWord w,
              decOut := decodeByte (encodeWord w), wiring := .apart, stim := ts }) ∧
  (∀ (s : State) (b : MF8) (ts : List Stimulus),
    Host.Core.run Sys2Proof.core 2 { s with stim := .decode (.lit b) :: .encode .decOut :: ts } =
      .next { encIn := decodeByte b, encOut := encodeWord (decodeByte b), decIn := b,
              decOut := decodeByte b, wiring := .apart, stim := ts })

/-- R57, R58 (decision D18): a line of a stimulus program binds the value that the machine shows on the
observed port after the line's stimuli, whether a pseudo-operation is written out as two evaluations or made by
connecting the units. -/
def Obligations.ProgramLinesRunOnTheMachine : Prop :=
  ∀ (l : Line) (c : Bench) (us ts : List Stimulus) (s : State),
    lineStimuli l c = some us ∨ wiredStimuli l c = some us →
    ∃ t : State, Host.Core.run Sys2Proof.core us.length { s with stim := us ++ ts } = .next t ∧
      t.stim = ts ∧ runLine l c = some (bindObserved l t c)

/-! ## Situations that other hardware would signal -/

/-- R102, the rows about `ENCODE` (rests on decisions D9 to D13, and D7 for the payload `1111`; that `F[22] = 0`
marks the NaN of `invalid` is the spec's general knowledge G3, PRESUMED, log entry 13): each of the eight
situations by the operands that show it, and the result the block gives, which is all that an evaluation shows of
it. -/
def Obligations.SituationsAreResolvedSilently : Prop :=
  ∀ (w : F32) (s : State),
    (showsSituation .overflow w = true ↔ 0x41800000 ≤ magBits w ∧ magBits w ≤ 0x7F7FFFFF) ∧
    (showsSituation .overflowByRounding w = true ↔ 0x417C0000 ≤ magBits w ∧ magBits w ≤ 0x417FFFFF) ∧
    (showsSituation .underflow w = true ↔ 0x3C000000 ≤ magBits w ∧ magBits w ≤ 0x3E7FFFFF) ∧
    (showsSituation .totalUnderflow w = true ↔ 0x00800000 ≤ magBits w ∧ magBits w ≤ 0x3BFFFFFF) ∧
    (showsSituation .subnormalLoss w = true ↔ 0x00000001 ≤ magBits w ∧ magBits w ≤ 0x007FFFFF) ∧
    (showsSituation .invalid w = true ↔ 0x7F800001 ≤ magBits w ∧ magBits w ≤ 0x7FBFFFFF) ∧
    (showsSituation .nanPayloadLoss w = true ↔ 0x7F800001 ≤ magBits w) ∧
    (showsSituation .inexact w = true ↔
      (125 ≤ (f32Exp w).toNat ∧ (f32Exp w).toNat ≤ 130 ∧ (f32Man w).toNat % 2 ^ 19 ≠ 0) ∨
      (120 ≤ (f32Exp w).toNat ∧ (f32Exp w).toNat ≤ 124 ∧
        (2 ^ 23 + (f32Man w).toNat) % 2 ^ (19 + (125 - (f32Exp w).toNat)) ≠ 0)) ∧
    (showsSituation .overflow w = true ∨ showsSituation .overflowByRounding w = true →
      exec (.encode w) s = .next (driveEncIn w (f32Sign w ++ 0x6F#7) s)) ∧
    (showsSituation .totalUnderflow w = true ∨ showsSituation .subnormalLoss w = true →
      exec (.encode w) s = .next (driveEncIn w (f32Sign w ++ 0x00#7) s)) ∧
    (showsSituation .invalid w = true ∨ showsSituation .nanPayloadLoss w = true →
      exec (.encode w) s = .next (driveEncIn w (f32Sign w ++ 0x7F#7) s)) ∧
    (showsSituation .underflow w = true →
      exec (.encode w) s = .next
        (driveEncIn w (f32Sign w ++ BitVec.ofNat 7 (underflowDenormalMag (f32Exp w) (f32Man w))) s)) ∧
    (showsSituation .inexact w = true →
      (125 ≤ (f32Exp w).toNat → exec (.encode w) s = .next
        (driveEncIn w (f32Sign w ++ BitVec.ofNat 7 (inrangeMag (f32Exp w) (f32Man w))) s)) ∧
      ((f32Exp w).toNat ≤ 124 → exec (.encode w) s = .next
        (driveEncIn w (f32Sign w ++ BitVec.ofNat 7 (underflowDenormalMag (f32Exp w) (f32Man w))) s)))

/-- R102 `inexact`, R66, R68 (rests on decisions D9, D11, D12): for an operand in range or on the denormal path,
a nonzero bit is discarded exactly when the result stands for another value than the operand. -/
def Obligations.InexactExactlyWhenTheValueChanges : Prop :=
  ∀ w : F32, (f32ClassOf w = .inrange ∨ f32ClassOf w = .underflowDenormal) →
    (showsSituation .inexact w = true ↔ val8 (encodeWord w) ≠ val32 w)

/-! ## The connection between the units -/

/-- R117, R119 (decision D4), R26: what driving an input and connecting the units leave in every field. A port
driven at the end of a wire takes the wire away, and a connection replaces the one there was (the model's
choice, log entry 6); an input whose wire is taken away or replaced keeps the pattern it carried (the model's
choice, log entry 15). -/
def Obligations.DrivingAndConnecting : Prop :=
  (∀ (w : F32) (y : MF8) (s : State),
    driveEncIn w y s =
      match s.wiring with
      | .apart => { s with encIn := w, encOut := y }
      | .encToDec => { s with encIn := w, encOut := y, decIn := y, decOut := decodeByte y }
      | .decToEnc => { s with encIn := w, encOut := y, wiring := .apart }) ∧
  (∀ (b : MF8) (y : F32) (s : State),
    driveDecIn b y s =
      match s.wiring with
      | .apart => { s with decIn := b, decOut := y }
      | .encToDec => { s with decIn := b, decOut := y, wiring := .apart }
      | .decToEnc => { s with decIn := b, decOut := y, encIn := y, encOut := encodeWord y }) ∧
  (∀ s : State,
    connectUnits .apart s = { s with wiring := .apart } ∧
    connectUnits .encToDec s =
      { s with wiring := .encToDec, decIn := s.encOut, decOut := decodeByte s.encOut } ∧
    connectUnits .decToEnc s =
      { s with wiring := .decToEnc, encIn := s.decOut, encOut := encodeWord s.decOut })

/-- R119 (which the spec marks derived, and decision D4), R58: once `enc_out` is wired to `dec_in`, `dec_out` is
`DECODE(ENCODE(enc_in))` after every pattern put on `enc_in`, however many came before, and the wire stays; the
same the other way round; and in a settled state the equation holds at once. -/
def Obligations.WiredUnitsFollowTheInput : Prop :=
  (∀ (s : State) (ws : List F32) (w : F32),
    Host.Core.run Sys2Proof.core (ws.length + 2)
        { s with stim := .connect .encToDec :: (ws ++ [w]).map fun v => .encode (.lit v) } =
      .next { encIn := w, encOut := encodeWord w, decIn := encodeWord w, decOut := roundTrip32 w,
              wiring := .encToDec, stim := [] }) ∧
  (∀ (s : State) (bs : List MF8) (b : MF8),
    Host.Core.run Sys2Proof.core (bs.length + 2)
        { s with stim := .connect .decToEnc :: (bs ++ [b]).map fun v => .decode (.lit v) } =
      .next { encIn := decodeByte b, encOut := roundTrip8 b, decIn := b, decOut := decodeByte b,
              wiring := .decToEnc, stim := [] }) ∧
  (∀ s : State, PortsSettled s →
    (s.wiring = .encToDec → s.decOut = roundTrip32 s.encIn) ∧
    (s.wiring = .decToEnc → s.encOut = roundTrip8 s.decIn))
end

