-- ==== Sys2Proof/Laws/Fields.lean ====
section
/-! SUPPORT. Extraction and assembly undo each other (spec/30_encoding.md R40, R42), and the numbers that
assembled patterns stand for (R43, R49). -/

namespace Sys2Proof

/-- Which field a bit of an assembled word comes from (R39). -/
theorem f32Word_getLsbD (S : Sign) (E : BitVec 8) (F : BitVec 23) (i : Nat) :
    (f32Word S E F).getLsbD i =
      if i < 23 then F.getLsbD i else if i - 23 < 8 then E.getLsbD (i - 23) else S.getLsbD (i - 23 - 8) := by
  refine (BitVec.getLsbD_append (x := S ++ E) (y := F) (i := i)).trans ?_
  rw [BitVec.getLsbD_append]

@[simp] theorem f32Sign_f32Word (S : Sign) (E : BitVec 8) (F : BitVec 23) :
    f32Sign (f32Word S E F) = S := by
  apply BitVec.eq_of_getLsbD_eq
  intro i hi
  obtain rfl : i = 0 := by omega
  rw [f32Sign, BitVec.getLsbD_extractLsb', f32Word_getLsbD]
  simp

@[simp] theorem f32Exp_f32Word (S : Sign) (E : BitVec 8) (F : BitVec 23) :
    f32Exp (f32Word S E F) = E := by
  apply BitVec.eq_of_getLsbD_eq
  intro i hi
  rw [f32Exp, BitVec.getLsbD_extractLsb', f32Word_getLsbD]
  simp [hi]

@[simp] theorem f32Man_f32Word (S : Sign) (E : BitVec 8) (F : BitVec 23) :
    f32Man (f32Word S E F) = F := by
  apply BitVec.eq_of_getLsbD_eq
  intro i hi
  rw [f32Man, BitVec.getLsbD_extractLsb', f32Word_getLsbD]
  simp [hi]

/-- Extraction loses nothing: `w = S ++ E ++ F` (R40). -/
@[simp] theorem f32Word_fields (w : F32) : f32Word (f32Sign w) (f32Exp w) (f32Man w) = w := by
  apply BitVec.eq_of_getLsbD_eq
  intro i hi
  rw [f32Word_getLsbD]
  simp only [f32Sign, f32Exp, f32Man, BitVec.getLsbD_extractLsb']
  split
  · simp [*]
  · split
    · have : 23 + (i - 23) = i := by omega
      simp [*]
    · have h : i = 31 := by omega
      subst h
      simp

@[simp] theorem mf8Sign_mf8Word : ∀ (s : Sign) (e : BitVec 3) (m : BitVec 4),
    mf8Sign (mf8Word s e m) = s := by decide

@[simp] theorem mf8Exp_mf8Word : ∀ (s : Sign) (e : BitVec 3) (m : BitVec 4),
    mf8Exp (mf8Word s e m) = e := by decide

@[simp] theorem mf8Man_mf8Word : ∀ (s : Sign) (e : BitVec 3) (m : BitVec 4),
    mf8Man (mf8Word s e m) = m := by decide

/-- Extraction loses nothing: `b = s ++ e ++ m` (R42). -/
@[simp] theorem mf8Word_fields : ∀ b : MF8, mf8Word (mf8Sign b) (mf8Exp b) (mf8Man b) = b := by decide

/-- `uint(E) = (uint(w) >> 23) & 0xFF` (R40), by division. -/
theorem f32Exp_toNat (w : F32) : (f32Exp w).toNat = w.toNat / 2 ^ 23 % 2 ^ 8 := by
  simp [f32Exp, Nat.shiftRight_eq_div_pow]

/-- `uint(F) = uint(w) & 0x7FFFFF` (R40), by remainder. -/
theorem f32Man_toNat (w : F32) : (f32Man w).toNat = w.toNat % 2 ^ 23 := by
  simp [f32Man]

/-- `uint(S) = uint(w) >> 31` (R40), by division. -/
theorem f32Sign_toNat (w : F32) : (f32Sign w).toNat = w.toNat / 2 ^ 31 := by
  have := w.isLt
  simp [f32Sign, Nat.shiftRight_eq_div_pow]
  omega

/-- `uint(word) = 2^31 * uint(S) + 2^23 * E + F` (R49). -/
theorem f32Word_toNat (S : Sign) (E : BitVec 8) (F : BitVec 23) :
    (f32Word S E F).toNat = 2 ^ 31 * S.toNat + 2 ^ 23 * E.toNat + F.toNat := by
  have hs := f32Sign_toNat (f32Word S E F)
  have he := f32Exp_toNat (f32Word S E F)
  have hf := f32Man_toNat (f32Word S E F)
  have := (f32Word S E F).isLt
  rw [f32Sign_f32Word] at hs
  rw [f32Exp_f32Word] at he
  rw [f32Man_f32Word] at hf
  omega

/-- `uint(byte) = 128 * uint(s) + 16 * e + m` (R42, R43). -/
theorem mf8Word_toNat : ∀ (s : Sign) (e : BitVec 3) (m : BitVec 4),
    (mf8Word s e m).toNat = 128 * s.toNat + 16 * e.toNat + m.toNat := by decide

/-- The sign bit of a byte assembled from a magnitude code is the sign (R43, R60). -/
theorem mf8OfMag_msb (s : Sign) (k : Nat) : (mf8OfMag s k).getLsbD 7 = s.getLsbD 0 := by
  exact BitVec.getLsbD_append (x := s) (y := BitVec.ofNat 7 k) (i := 7)

/-- `uint(byte) = 128 * uint(s) + k` for a magnitude code `k <= 127` (R43). -/
theorem mf8OfMag_toNat (s : Sign) (k : Nat) (hk : k ≤ 127) :
    (mf8OfMag s k).toNat = 128 * s.toNat + k := by
  have key : ∀ (s : Sign) (k : Fin 128),
      (mf8OfMag s k.val).toNat = 128 * s.toNat + k.val := by decide
  exact key s ⟨k, by omega⟩

/-- Two signs are equal when they are the same number. -/
theorem sign_eq_of_toNat {s t : Sign} (h : s.toNat = t.toNat) : s = t := BitVec.eq_of_toNat_eq h

end Sys2Proof
end

