-- ==== Sys2Proof/Laws/Classes.lean ====
section
/-! SUPPORT. The classes of an operand as conditions on its fields read as numbers (spec/30_encoding.md R44
to R46, R48). -/

namespace Sys2Proof

/-- `e' = E - 124` (R45). -/
theorem rebiasedExp_eq (E : BitVec 8) : rebiasedExp E = (E.toNat : Int) - 124 := by
  simp only [rebiasedExp, unbiasedExp, Config.f32Bias, Config.mfBias]
  omega

/-- The leaf class by ranges of `E` (R44, R46). -/
theorem f32Class_eq (E : BitVec 8) (F : BitVec 23) :
    f32Class E F =
      if E.toNat = 0 then (if F.toNat = 0 then .zero else .subnormal)
      else if E.toNat = 255 then (if F.toNat = 0 then .inf else .nan)
      else if 131 ≤ E.toNat then .overflow
      else if 125 ≤ E.toNat then .inrange
      else if 120 ≤ E.toNat then .underflowDenormal
      else .underflowZero := by
  have hE : (E = 0) ↔ E.toNat = 0 := by simp [← BitVec.toNat_inj]
  have hF : (F = 0) ↔ F.toNat = 0 := by simp [← BitVec.toNat_inj]
  simp only [f32Class, f32Primary, rebiasedExp_eq, hE, hF, Config.f32ExpMax]
  have h7 : ((E.toNat : Int) - 124 ≥ 7) ↔ 131 ≤ E.toNat := by omega
  have h1 : ((E.toNat : Int) - 124 ≥ 1) ↔ 125 ≤ E.toNat := by omega
  have h4 : ((E.toNat : Int) - 124 ≥ -4) ↔ 120 ≤ E.toNat := by omega
  simp only [h7, h1, h4]
  by_cases a : E.toNat = 0 <;> by_cases b : E.toNat = 255 <;> by_cases c : F.toNat = 0 <;>
    simp [a, b, c]

theorem f32Class_zero_iff (E : BitVec 8) (F : BitVec 23) :
    f32Class E F = .zero ↔ E.toNat = 0 ∧ F.toNat = 0 := by
  rw [f32Class_eq]; grind

theorem f32Class_subnormal_iff (E : BitVec 8) (F : BitVec 23) :
    f32Class E F = .subnormal ↔ E.toNat = 0 ∧ F.toNat ≠ 0 := by
  rw [f32Class_eq]; grind

theorem f32Class_inf_iff (E : BitVec 8) (F : BitVec 23) :
    f32Class E F = .inf ↔ E.toNat = 255 ∧ F.toNat = 0 := by
  rw [f32Class_eq]; grind

theorem f32Class_nan_iff (E : BitVec 8) (F : BitVec 23) :
    f32Class E F = .nan ↔ E.toNat = 255 ∧ F.toNat ≠ 0 := by
  rw [f32Class_eq]; grind

theorem f32Class_overflow_iff (E : BitVec 8) (F : BitVec 23) :
    f32Class E F = .overflow ↔ 131 ≤ E.toNat ∧ E.toNat ≤ 254 := by
  have := E.isLt
  rw [f32Class_eq]; grind

theorem f32Class_inrange_iff (E : BitVec 8) (F : BitVec 23) :
    f32Class E F = .inrange ↔ 125 ≤ E.toNat ∧ E.toNat ≤ 130 := by
  rw [f32Class_eq]; grind

theorem f32Class_underflowDenormal_iff (E : BitVec 8) (F : BitVec 23) :
    f32Class E F = .underflowDenormal ↔ 120 ≤ E.toNat ∧ E.toNat ≤ 124 := by
  rw [f32Class_eq]; grind

theorem f32Class_underflowZero_iff (E : BitVec 8) (F : BitVec 23) :
    f32Class E F = .underflowZero ↔ 1 ≤ E.toNat ∧ E.toNat ≤ 119 := by
  rw [f32Class_eq]; grind

/-- The class of the decoder's operand by ranges of `e` (R48). -/
theorem mf8Class_eq : ∀ (e : BitVec 3) (m : BitVec 4),
    mf8Class e m =
      if e.toNat = 0 then (if m.toNat = 0 then .zero else .denormal)
      else if e.toNat = 7 then (if m.toNat = 0 then .inf else .nan)
      else .normal := by decide

/-- What the decoder answers on an assembled word, by the class of its fields (R56). -/
theorem decodeF32_f32Word (S : Sign) (E : BitVec 8) (F : BitVec 23) :
    decodeF32 (f32Word S E F) =
      match f32Class E F with
      | .zero => .encodeZero S
      | .subnormal => .encodeSubnormal S F
      | .inf => .encodeInf S
      | .nan => .encodeNan S F
      | .overflow => .encodeOverflow S E F
      | .inrange => .encodeInrange S E F
      | .underflowDenormal => .encodeUnderflowDenormal S E F
      | .underflowZero => .encodeUnderflowZero S E F := by
  cases hc : f32Class E F <;>
    simp only [decodeF32, f32ClassOf, f32Sign_f32Word, f32Exp_f32Word, f32Man_f32Word, hc]

/-- What the decoder answers on an assembled byte, by the class of its fields (R56). -/
theorem decodeMF8_mf8Word (s : Sign) (e : BitVec 3) (m : BitVec 4) :
    decodeMF8 (mf8Word s e m) =
      match mf8Class e m with
      | .zero => .decodeZero s
      | .denormal => .decodeDenormal s m
      | .inf => .decodeInf s
      | .nan => .decodeNan s m
      | .normal => .decodeNormal s e m := by
  cases hc : mf8Class e m <;>
    simp only [decodeMF8, mf8ClassOf, mf8Sign_mf8Word, mf8Exp_mf8Word, mf8Man_mf8Word, hc]

end Sys2Proof
end

