-- ==== Sys2Proof/Laws/State.lean ====
section
/-! SUPPORT. One lemma per field per update of the state, and the spec lemmas of the operations over it. -/

namespace Sys2Proof.Machine

@[simp] theorem settleEnc_encIn (w : F32) (y : MF8) (s : State) : (settleEnc w y s).encIn = w := rfl
@[simp] theorem settleEnc_encOut (w : F32) (y : MF8) (s : State) : (settleEnc w y s).encOut = y := rfl
@[simp] theorem settleEnc_decIn (w : F32) (y : MF8) (s : State) : (settleEnc w y s).decIn = s.decIn := rfl
@[simp] theorem settleEnc_decOut (w : F32) (y : MF8) (s : State) : (settleEnc w y s).decOut = s.decOut := rfl
@[simp] theorem settleEnc_wiring (w : F32) (y : MF8) (s : State) : (settleEnc w y s).wiring = s.wiring := rfl
@[simp] theorem settleEnc_stim (w : F32) (y : MF8) (s : State) : (settleEnc w y s).stim = s.stim := rfl

@[simp] theorem settleDec_encIn (b : MF8) (y : F32) (s : State) : (settleDec b y s).encIn = s.encIn := rfl
@[simp] theorem settleDec_encOut (b : MF8) (y : F32) (s : State) : (settleDec b y s).encOut = s.encOut := rfl
@[simp] theorem settleDec_decIn (b : MF8) (y : F32) (s : State) : (settleDec b y s).decIn = b := rfl
@[simp] theorem settleDec_decOut (b : MF8) (y : F32) (s : State) : (settleDec b y s).decOut = y := rfl
@[simp] theorem settleDec_wiring (b : MF8) (y : F32) (s : State) : (settleDec b y s).wiring = s.wiring := rfl
@[simp] theorem settleDec_stim (b : MF8) (y : F32) (s : State) : (settleDec b y s).stim = s.stim := rfl

@[simp] theorem pushOperand_encIn (p : Operand) (s : State) : (pushOperand p s).encIn = s.encIn := rfl
@[simp] theorem pushOperand_encOut (p : Operand) (s : State) : (pushOperand p s).encOut = s.encOut := rfl
@[simp] theorem pushOperand_decIn (p : Operand) (s : State) : (pushOperand p s).decIn = s.decIn := rfl
@[simp] theorem pushOperand_decOut (p : Operand) (s : State) : (pushOperand p s).decOut = s.decOut := rfl
@[simp] theorem pushOperand_wiring (p : Operand) (s : State) : (pushOperand p s).wiring = s.wiring := rfl
@[simp] theorem pushOperand_stim (p : Operand) (s : State) : (pushOperand p s).stim = literalStimulus p :: s.stim := rfl

@[simp] theorem unwire_encIn (c : Wiring) (s : State) : (unwire c s).encIn = s.encIn := by
  unfold unwire; split <;> rfl
@[simp] theorem unwire_encOut (c : Wiring) (s : State) : (unwire c s).encOut = s.encOut := by
  unfold unwire; split <;> rfl
@[simp] theorem unwire_decIn (c : Wiring) (s : State) : (unwire c s).decIn = s.decIn := by
  unfold unwire; split <;> rfl
@[simp] theorem unwire_decOut (c : Wiring) (s : State) : (unwire c s).decOut = s.decOut := by
  unfold unwire; split <;> rfl
@[simp] theorem unwire_stim (c : Wiring) (s : State) : (unwire c s).stim = s.stim := by
  unfold unwire; split <;> rfl

/-- Taking away a wire that is there, or the wire that is not. -/
@[simp] theorem unwire_wiring (c : Wiring) (s : State) :
    (unwire c s).wiring = if s.wiring = c then .apart else s.wiring := by
  unfold unwire; split <;> rfl

/-- Without a wire nothing is carried; a wire sets the input at its end and settles the unit there. -/
theorem carryWire_cases (s : State) :
    (s.wiring = .apart ∧ carryWire s = s) ∨
    (s.wiring = .encToDec ∧ carryWire s = settleDec s.encOut (decodeByte s.encOut) s) ∨
    (s.wiring = .decToEnc ∧ carryWire s = settleEnc s.decOut (encodeWord s.decOut) s) := by
  unfold carryWire
  cases s.wiring <;> simp

/-- Everything driving `enc_in` can do, by the connection there is. -/
theorem driveEncIn_cases (w : F32) (y : MF8) (s : State) :
    (s.wiring = .apart ∧ driveEncIn w y s = { s with encIn := w, encOut := y }) ∨
    (s.wiring = .encToDec ∧ driveEncIn w y s =
      { s with encIn := w, encOut := y, decIn := y, decOut := decodeByte y }) ∨
    (s.wiring = .decToEnc ∧ driveEncIn w y s = { s with encIn := w, encOut := y, wiring := .apart }) := by
  obtain ⟨a, b, c, d, wi, st⟩ := s
  cases wi <;> simp [driveEncIn, unwire, carryWire, settleEnc, settleDec]

/-- Everything driving `dec_in` can do, by the connection there is. -/
theorem driveDecIn_cases (b : MF8) (y : F32) (s : State) :
    (s.wiring = .apart ∧ driveDecIn b y s = { s with decIn := b, decOut := y }) ∨
    (s.wiring = .encToDec ∧ driveDecIn b y s = { s with decIn := b, decOut := y, wiring := .apart }) ∨
    (s.wiring = .decToEnc ∧ driveDecIn b y s =
      { s with decIn := b, decOut := y, encIn := y, encOut := encodeWord y }) := by
  obtain ⟨a, b, c, d, wi, st⟩ := s
  cases wi <;> simp [driveDecIn, unwire, carryWire, settleEnc, settleDec]

/-- Everything connecting the units can do. -/
theorem connectUnits_cases (c : Wiring) (s : State) :
    (c = .apart ∧ connectUnits c s = { s with wiring := .apart }) ∨
    (c = .encToDec ∧ connectUnits c s =
      { s with wiring := .encToDec, decIn := s.encOut, decOut := decodeByte s.encOut }) ∨
    (c = .decToEnc ∧ connectUnits c s =
      { s with wiring := .decToEnc, encIn := s.decOut, encOut := encodeWord s.decOut }) := by
  cases c <;> simp [connectUnits, carryWire, settleEnc, settleDec]

@[simp] theorem driveEncIn_encIn (w : F32) (y : MF8) (s : State) : (driveEncIn w y s).encIn = w := by
  rcases driveEncIn_cases w y s with ⟨_, h⟩ | ⟨_, h⟩ | ⟨_, h⟩ <;> rw [h]
@[simp] theorem driveEncIn_encOut (w : F32) (y : MF8) (s : State) : (driveEncIn w y s).encOut = y := by
  rcases driveEncIn_cases w y s with ⟨_, h⟩ | ⟨_, h⟩ | ⟨_, h⟩ <;> rw [h]
@[simp] theorem driveEncIn_stim (w : F32) (y : MF8) (s : State) : (driveEncIn w y s).stim = s.stim := by
  rcases driveEncIn_cases w y s with ⟨_, h⟩ | ⟨_, h⟩ | ⟨_, h⟩ <;> rw [h]
@[simp] theorem driveDecIn_decIn (b : MF8) (y : F32) (s : State) : (driveDecIn b y s).decIn = b := by
  rcases driveDecIn_cases b y s with ⟨_, h⟩ | ⟨_, h⟩ | ⟨_, h⟩ <;> rw [h]
@[simp] theorem driveDecIn_decOut (b : MF8) (y : F32) (s : State) : (driveDecIn b y s).decOut = y := by
  rcases driveDecIn_cases b y s with ⟨_, h⟩ | ⟨_, h⟩ | ⟨_, h⟩ <;> rw [h]
@[simp] theorem driveDecIn_stim (b : MF8) (y : F32) (s : State) : (driveDecIn b y s).stim = s.stim := by
  rcases driveDecIn_cases b y s with ⟨_, h⟩ | ⟨_, h⟩ | ⟨_, h⟩ <;> rw [h]
@[simp] theorem connectUnits_stim (c : Wiring) (s : State) : (connectUnits c s).stim = s.stim := by
  rcases connectUnits_cases c s with ⟨_, h⟩ | ⟨_, h⟩ | ⟨_, h⟩ <;> rw [h]
@[simp] theorem connectUnits_wiring (c : Wiring) (s : State) : (connectUnits c s).wiring = c := by
  rcases connectUnits_cases c s with ⟨e, h⟩ | ⟨e, h⟩ | ⟨e, h⟩ <;> rw [h, e]

/-- A literal stimulus evaluates exactly its operand, in every state. -/
@[simp] theorem stimulusAction_literal (p : Operand) (s : State) :
    stimulusAction (literalStimulus p) s = .evaluate p := by
  cases p <;> rfl

/-- Everything `nextAction` can answer: nothing, when no stimulus is left, or the action of the first
stimulus and the state without it, ports and connection untouched. -/
theorem nextAction_cases (s : State) :
    (s.stim = [] ∧ nextAction s = none) ∨
    ∃ t rest, s.stim = t :: rest ∧
      nextAction s = some (stimulusAction t s, { s with stim := rest }) := by
  unfold nextAction
  cases h : s.stim with
  | nil => exact .inl ⟨rfl, rfl⟩
  | cons t rest => exact .inr ⟨t, rest, rfl, rfl⟩

/-- The operand just pushed is the next one, and taking it gives the state back. -/
theorem nextAction_pushOperand (p : Operand) (s : State) :
    nextAction (pushOperand p s) = some (.evaluate p, s) := by
  cases p <;> rfl

end Sys2Proof.Machine
end

