-- ==== Sys2Proof/Laws/Units.lean ====
section
/-! SUPPORT. The wires of the two units as numbers, their ranges (spec/40_encode.md R71, spec/41_decode.md
R83), and one spec lemma for each shared operation of the meanings. -/

namespace Sys2Proof.Machine

/-! ## Encoder wires -/

theorem top4_toNat (F : BitVec 23) : (top4 F).toNat = F.toNat / 2 ^ 19 := by
  have := F.isLt
  simp [top4, Nat.shiftRight_eq_div_pow]
  omega

theorem rbit_toNat (F : BitVec 23) : (rbit F).toNat = F.toNat / 2 ^ 18 % 2 := by
  simp [rbit, Nat.shiftRight_eq_div_pow]

theorem sig5_toNat (F : BitVec 23) : (sig5 F).toNat = 16 + F.toNat / 2 ^ 19 := by
  have key : ∀ t : BitVec 4, (1#1 ++ t : BitVec 5).toNat = 16 + t.toNat := by decide
  rw [sig5, key, top4_toNat]

/-- `k1 = 16 * (E - 124) + top4 + rbit` for an in-range operand (R66). -/
theorem k1_eq (E : BitVec 8) (F : BitVec 23) :
    k1 E F = 16 * (E.toNat - 124) + F.toNat / 2 ^ 19 + F.toNat / 2 ^ 18 % 2 := by
  rw [k1, k0, rebiasedExp_eq, top4_toNat, rbit_toNat]
  omega

/-- `d = 125 - E` below the in-range exponents (R68). -/
theorem shiftAmount_eq (E : BitVec 8) : shiftAmount E = 125 - E.toNat := by
  rw [shiftAmount, rebiasedExp_eq]
  omega

/-- `k1 <= 112` for an in-range operand (R66, R71 (c)). -/
theorem k1_le (E : BitVec 8) (F : BitVec 23) (h : E.toNat ≤ 130) : k1 E F ≤ 112 := by
  have := F.isLt
  rw [k1_eq]
  omega

/-- The result of an in-range operand never reaches exponent field 7 (R67). -/
theorem inrangeMag_le (E : BitVec 8) (F : BitVec 23) (h : E.toNat ≤ 130) :
    inrangeMag E F ≤ 111 := by
  have := k1_le E F h
  unfold inrangeMag Config.mfInfinity Config.mfMaxFinite
  split <;> omega

/-- `q + r` by the shift amount, the table of R68. -/
theorem underflowDenormalMag_eq (E : BitVec 8) (F : BitVec 23)
    (h : 120 ≤ E.toNat) (h' : E.toNat ≤ 124) :
    underflowDenormalMag E F = (16 + F.toNat / 2 ^ 19 + 2 ^ (124 - E.toNat)) / 2 ^ (125 - E.toNat) := by
  have := F.isLt
  have hd := shiftAmount_eq E
  simp only [underflowDenormalMag, retained, highestDiscarded, hd, sig5_toNat,
    Nat.shiftRight_eq_div_pow, Nat.and_one_is_mod]
  have hE : E.toNat = 120 ∨ E.toNat = 121 ∨ E.toNat = 122 ∨ E.toNat = 123 ∨ E.toNat = 124 := by omega
  rcases hE with e | e | e | e | e <;> rw [e] <;> norm_num <;> omega

/-- The denormal path gives a code in 1 .. 16 (R68, R70). -/
theorem underflowDenormalMag_range (E : BitVec 8) (F : BitVec 23)
    (h : 120 ≤ E.toNat) (h' : E.toNat ≤ 124) :
    1 ≤ underflowDenormalMag E F ∧ underflowDenormalMag E F ≤ 16 := by
  have := F.isLt
  rw [underflowDenormalMag_eq E F h h']
  have hE : E.toNat = 120 ∨ E.toNat = 121 ∨ E.toNat = 122 ∨ E.toNat = 123 ∨ E.toNat = 124 := by omega
  rcases hE with e | e | e | e | e <;> rw [e] <;> norm_num <;> omega

/-- Every case's code fits in 7 bits (R59, R71 (c)). -/
theorem encodeMag_le (np : BitVec 4) (E : BitVec 8) (F : BitVec 23) : encodeMag np E F ≤ 127 := by
  have := np.isLt
  unfold encodeMag
  cases h : f32Class E F with
  | zero => simp [zeroMag]
  | subnormal => simp [subnormalMag]
  | inf => simp [infMag, Config.mfInfinity]
  | nan => simp only [nanMag, Config.mfInfinity]; omega
  | overflow => simp [overflowMag, Config.mfMaxFinite]
  | inrange =>
    have := inrangeMag_le E F ((f32Class_inrange_iff E F).1 h).2
    simp only; omega
  | underflowDenormal =>
    obtain ⟨a, b⟩ := (f32Class_underflowDenormal_iff E F).1 h
    have := (underflowDenormalMag_range E F a b).2
    simp only; omega
  | underflowZero => simp [underflowZeroMag]

/-- `uint(ENCODE(w)) = 128 * S + k` (R43, R59). -/
theorem encodeWith_toNat (np : BitVec 4) (w : F32) :
    (encodeWith np w).toNat =
      128 * (f32Sign w).toNat + encodeMag np (f32Exp w) (f32Man w) :=
  mf8OfMag_toNat _ _ (encodeMag_le _ _ _)

/-- `ENCODE` of an assembled word (R59). -/
theorem encodeWith_f32Word (np : BitVec 4) (S : Sign) (E : BitVec 8) (F : BitVec 23) :
    encodeWith np (f32Word S E F) = mf8OfMag S (encodeMag np E F) := by
  simp only [encodeWith, f32Sign_f32Word, f32Exp_f32Word, f32Man_f32Word]

/-! ## Decoder wires -/

/-- `hibit(m)` is the index of the highest set bit (R9, R51). -/
theorem hibit_spec : ∀ m : BitVec 4, m ≠ 0 → 2 ^ hibit m ≤ m.toNat ∧ m.toNat < 2 ^ (hibit m + 1) := by
  decide

/-- The output fields of every operand fit their widths (R82). -/
theorem decodeFields_range : ∀ (e : BitVec 3) (m : BitVec 4),
    (decodeFields e m).1 ≤ 255 ∧ (decodeFields e m).2 < 2 ^ 23 := by decide

/-- `DECODE` of an assembled byte (R75). -/
theorem decodeByte_mf8Word (s : Sign) (e : BitVec 3) (m : BitVec 4) :
    decodeByte (mf8Word s e m) = f32OfPair s (decodeFields e m) := by
  simp only [decodeByte, mf8Sign_mf8Word, mf8Exp_mf8Word, mf8Man_mf8Word]

/-! ## The shared operations of the meanings -/

/-- Everything `evalEncodeRow` can do: when the row's code is the operation's code on the row's class, it
drives the encoder, which shows `ENCODE` of the operand, whatever the fields are. -/
theorem evalEncodeRow_eq (c : F32Class) (k : Nat) (S : Sign) (E : BitVec 8) (F : BitVec 23) (s : State)
    (hk : f32Class E F = c → k = encodeMag Config.nanPayload E F) :
    evalEncodeRow c k S E F s =
      .next (driveEncIn (f32Word S E F) (encodeWord (f32Word S E F)) s) := by
  rw [evalEncodeRow, encodeWord, encodeWith_f32Word]
  split
  · next h => rw [hk h]
  · rfl

/-- Everything `evalDecodeRow` can do: when the row's fields are the operation's fields on the row's
class, it drives the decoder, which shows `DECODE` of the operand, whatever the fields are. -/
theorem evalDecodeRow_eq (c : MF8Class) (p : Nat × Nat) (sg : Sign) (e : BitVec 3) (m : BitVec 4)
    (s : State) (hp : mf8Class e m = c → p = decodeFields e m) :
    evalDecodeRow c p sg e m s =
      .next (driveDecIn (mf8Word sg e m) (decodeByte (mf8Word sg e m)) s) := by
  rw [evalDecodeRow, decodeByte_mf8Word]
  split
  · next h => rw [hp h]
  · rfl

end Sys2Proof.Machine
end

