-- ==== Sys2Proof/Laws/Numerics.lean ====
section
/-! SUPPORT. Values as scaled whole numbers: a finite float32 magnitude in units of 2^-149 and a value of the
set in units of 2^-6, so that comparisons of values become comparisons of numbers (spec/30_encoding.md R52,
R53; spec/42_numerics.md R85). -/

namespace Sys2Proof.Machine

theorem abs_signFactor (S : Sign) : |signFactor S| = 1 := by
  unfold signFactor
  split <;> simp

/-- `val32` of a normalized operand, from its fields (R52). -/
theorem val32_normal (w : F32) (S : Sign) (E F : Nat) (hS : f32Sign w = S) (hE : (f32Exp w).toNat = E)
    (hF : (f32Man w).toNat = F) (h1 : 1 ≤ E) (h2 : E ≤ 254) :
    val32 w = some (signFactor S * (2 : ℚ) ^ ((E : ℤ) - 127) * (1 + (F : ℚ) / 2 ^ 23)) := by
  subst hS hE hF
  simp only [val32]
  rw [if_neg (by omega), if_neg (by omega)]

/-- `val32` of a zero or subnormal operand, from its fields (R52). -/
theorem val32_small (w : F32) (S : Sign) (F : Nat) (hS : f32Sign w = S) (hE : (f32Exp w).toNat = 0)
    (hF : (f32Man w).toNat = F) : val32 w = some (signFactor S * F * (2 : ℚ) ^ (-149 : ℤ)) := by
  subst hS hF
  simp only [val32, hE]
  norm_num

/-- `val32` is defined exactly for `E` not 255 (R52). -/
theorem val32_eq_none_iff (w : F32) : val32 w = none ↔ (f32Exp w).toNat = 255 := by
  simp only [val32]
  split
  · simp [*]
  · split <;> simp [*]

/-- The magnitude of a finite operand in units of 2^-149. -/
def scaled32 (E F : Nat) : Nat := if E = 0 then F else (2 ^ 23 + F) * 2 ^ (E - 1)

/-- A finite operand's value is its sign times its scaled magnitude. -/
theorem val32_eq_scaled (w : F32) (x : ℚ) (h : val32 w = some x) :
    x = signFactor (f32Sign w) * scaled32 (f32Exp w).toNat (f32Man w).toNat * (2 : ℚ) ^ (-149 : ℤ) := by
  have hb := (f32Exp w).isLt
  have h255 : (f32Exp w).toNat ≠ 255 := fun e => by
    rw [(val32_eq_none_iff w).2 e] at h; cases h
  by_cases h0 : (f32Exp w).toNat = 0
  · rw [val32_small w _ _ rfl h0 rfl] at h
    simp only [scaled32, h0, if_true]
    exact (Option.some.inj h).symm
  · obtain ⟨n, hn⟩ : ∃ n, (f32Exp w).toNat = n + 1 := ⟨(f32Exp w).toNat - 1, by omega⟩
    rw [val32_normal w _ _ _ rfl rfl rfl (by omega) (by omega)] at h
    rw [← Option.some.inj h, scaled32, if_neg h0, hn, Nat.add_sub_cancel]
    have hz : (2 : ℚ) ^ (((n + 1 : ℕ) : ℤ) - 127) = 2 ^ n * 2 ^ 23 * (2 : ℚ) ^ (-149 : ℤ) := by
      rw [← zpow_natCast, ← zpow_natCast, ← zpow_add₀ (by norm_num), ← zpow_add₀ (by norm_num)]
      congr 1
      push_cast
      ring
    rw [hz]
    push_cast
    field_simp
    norm_num

/-- The magnitude of a finite operand's value. -/
theorem abs_val32 (w : F32) (x : ℚ) (h : val32 w = some x) :
    |x| = scaled32 (f32Exp w).toNat (f32Man w).toNat * (2 : ℚ) ^ (-149 : ℤ) := by
  rw [val32_eq_scaled w x h, abs_mul, abs_mul, abs_signFactor, one_mul, Nat.abs_cast,
    abs_of_pos (by positivity)]

/-- A value of the set in units of 2^-6. -/
def scaledV (k : Nat) : Nat := if k / 16 = 0 then k else (16 + k % 16) * 2 ^ (k / 16 - 1)

/-- The two forms of a finite byte's magnitude (R53, R85) are one whole number over 64. -/
theorem scaledV_split (e m : Nat) (he : e ≤ 6) (hm : m ≤ 15) :
    (if e = 0 then (m : ℚ) * (2 : ℚ) ^ (-6 : ℤ) else (2 : ℚ) ^ ((e : ℤ) - 3) * (1 + (m : ℚ) / 16)) =
      scaledV (16 * e + m) / 64 := by
  have h1 : (16 * e + m) / 16 = e := by omega
  have h2 : (16 * e + m) % 16 = m := by omega
  rw [scaledV, h1, h2]
  have : e = 0 ∨ e = 1 ∨ e = 2 ∨ e = 3 ∨ e = 4 ∨ e = 5 ∨ e = 6 := by omega
  rcases this with rfl | rfl | rfl | rfl | rfl | rfl | rfl <;> norm_num <;> ring

/-- `val8` of a byte in units of 2^-6 (R53). -/
theorem val8_eq_scaled (b : MF8) (h : (mf8Exp b).toNat ≠ 7) :
    val8 b = some (signFactor (mf8Sign b) * (scaledV (b.toNat % 128) / 64)) := by
  have hf : ∀ b : MF8, b.toNat % 128 = 16 * (mf8Exp b).toNat + (mf8Man b).toNat := by decide
  have he := (mf8Exp b).isLt
  have hm := (mf8Man b).isLt
  rw [hf b, ← scaledV_split _ _ (by omega) (by omega)]
  simp only [val8]
  rw [if_neg h]
  split <;> simp only [mul_assoc]

/-- `V[k] = scaledV k / 64` (R85). -/
theorem valueSet_eq_scaled (k : Nat) (hk : k ≤ 0x6F) : valueSet k = scaledV k / 64 := by
  have hf : ∀ k : Fin 112, (mf8Exp (BitVec.ofNat 8 k.val)).toNat ≠ 7 ∧
      (BitVec.ofNat 8 k.val).toNat % 128 = k.val ∧ mf8Sign (BitVec.ofNat 8 k.val) = 0 := by decide
  obtain ⟨he, hn, hs⟩ := hf ⟨k, by omega⟩
  have h1 : signFactor 0 = 1 := by decide
  rw [valueSet, val8_eq_scaled _ he, hs, hn, h1, one_mul, Option.getD_some]

/-- The scaled values are strictly increasing (R85). -/
theorem scaledV_strictMono : ∀ k : Fin 111, scaledV k.val < scaledV (k.val + 1) := by decide

end Sys2Proof.Machine
end

