-- ==== Sys2Proof/Laws/PerInstr.lean ====
section
/-! SUPPORT. A statement about every instruction as syntax: the operand it stands for is the number that the
spec's assembly formula gives its fields (spec/30_encoding.md R43, R49). -/

namespace Sys2Proof.Laws.FieldsPlaced

/-- `uint(word) = 2^31 * S + 2^23 * E + F` (R49) and `uint(byte) = 128 * s + 16 * e + m` (R43), with the
fields that the instruction's row fixes put in as numbers. -/
def Statement (i : Instr) : Prop :=
  match Sys2Proof.encode i, i with
  | .onEncIn w, .encode w' => w = w'
  | .onEncIn w, .encodeZero S => w.toNat = 2 ^ 31 * S.toNat
  | .onEncIn w, .encodeSubnormal S F => w.toNat = 2 ^ 31 * S.toNat + F.toNat
  | .onEncIn w, .encodeInf S => w.toNat = 2 ^ 31 * S.toNat + 2 ^ 23 * 255
  | .onEncIn w, .encodeNan S F => w.toNat = 2 ^ 31 * S.toNat + 2 ^ 23 * 255 + F.toNat
  | .onEncIn w, .encodeOverflow S E F => w.toNat = 2 ^ 31 * S.toNat + 2 ^ 23 * E.toNat + F.toNat
  | .onEncIn w, .encodeInrange S E F => w.toNat = 2 ^ 31 * S.toNat + 2 ^ 23 * E.toNat + F.toNat
  | .onEncIn w, .encodeUnderflowDenormal S E F =>
    w.toNat = 2 ^ 31 * S.toNat + 2 ^ 23 * E.toNat + F.toNat
  | .onEncIn w, .encodeUnderflowZero S E F =>
    w.toNat = 2 ^ 31 * S.toNat + 2 ^ 23 * E.toNat + F.toNat
  | .onDecIn b, .decode b' => b = b'
  | .onDecIn b, .decodeZero s => b.toNat = 128 * s.toNat
  | .onDecIn b, .decodeDenormal s m => b.toNat = 128 * s.toNat + m.toNat
  | .onDecIn b, .decodeInf s => b.toNat = 128 * s.toNat + 16 * 7
  | .onDecIn b, .decodeNan s m => b.toNat = 128 * s.toNat + 16 * 7 + m.toNat
  | .onDecIn b, .decodeNormal s e m => b.toNat = 128 * s.toNat + 16 * e.toNat + m.toNat
  | _, _ => False

theorem encode (w : F32) : Statement (.encode w) := rfl

theorem encodeZero (S : Sign) : Statement (.encodeZero S) := by
  simpa [Statement, Sys2Proof.encode] using f32Word_toNat S 0 0

theorem encodeSubnormal (S : Sign) (F : BitVec 23) : Statement (.encodeSubnormal S F) := by
  simpa [Statement, Sys2Proof.encode] using f32Word_toNat S 0 F

theorem encodeInf (S : Sign) : Statement (.encodeInf S) := f32Word_toNat S 0xFF 0

theorem encodeNan (S : Sign) (F : BitVec 23) : Statement (.encodeNan S F) := f32Word_toNat S 0xFF F

theorem encodeOverflow (S : Sign) (E : BitVec 8) (F : BitVec 23) :
    Statement (.encodeOverflow S E F) := f32Word_toNat S E F

theorem encodeInrange (S : Sign) (E : BitVec 8) (F : BitVec 23) :
    Statement (.encodeInrange S E F) := f32Word_toNat S E F

theorem encodeUnderflowDenormal (S : Sign) (E : BitVec 8) (F : BitVec 23) :
    Statement (.encodeUnderflowDenormal S E F) := f32Word_toNat S E F

theorem encodeUnderflowZero (S : Sign) (E : BitVec 8) (F : BitVec 23) :
    Statement (.encodeUnderflowZero S E F) := f32Word_toNat S E F

theorem decode (b : MF8) : Statement (.decode b) := rfl

theorem decodeZero (s : Sign) : Statement (.decodeZero s) := mf8Word_toNat s 0 0

theorem decodeDenormal (s : Sign) (m : BitVec 4) : Statement (.decodeDenormal s m) := by
  simpa [Statement, Sys2Proof.encode] using mf8Word_toNat s 0 m

theorem decodeInf (s : Sign) : Statement (.decodeInf s) := mf8Word_toNat s 7 0

theorem decodeNan (s : Sign) (m : BitVec 4) : Statement (.decodeNan s m) := mf8Word_toNat s 7 m

theorem decodeNormal (s : Sign) (e : BitVec 3) (m : BitVec 4) : Statement (.decodeNormal s e m) :=
  mf8Word_toNat s e m

end Sys2Proof.Laws.FieldsPlaced
end

