-- ==== Sys2Proof/Laws/Step.lean ====
section
/-! SUPPORT. Everything a step can do, said once. -/

namespace Sys2Proof.Machine

/-- A step leaves the state alone when no stimulus is left; else it runs the instruction that the next
stimulus's operand decodes to, or connects the units, in the state without that stimulus. -/
theorem step_cases (s : State) :
    (s.stim = [] ∧ step s = .next s) ∨
    ∃ t rest, s.stim = t :: rest ∧
      ((∃ p, stimulusAction t s = .evaluate p ∧ step s = exec (decode p) { s with stim := rest }) ∨
        ∃ c, stimulusAction t s = .connect c ∧ step s = .next (connectUnits c { s with stim := rest })) := by
  rcases nextAction_cases s with ⟨h, hn⟩ | ⟨t, rest, h, hn⟩
  · exact .inl ⟨h, by rw [step, hn]⟩
  · refine .inr ⟨t, rest, h, ?_⟩
    cases ha : stimulusAction t s with
    | evaluate p => exact .inl ⟨p, rfl, by rw [step, hn, ha]⟩
    | connect c => exact .inr ⟨c, rfl, by rw [step, hn, ha]⟩

/-- Placing an operand and stepping runs its instruction in the state it was placed in. -/
theorem step_pushOperand (p : Operand) (s : State) : step (pushOperand p s) = exec (decode p) s := by
  rw [step, nextAction_pushOperand]

end Sys2Proof.Machine
end

