-- ==== Sys2Proof/Tests/Slice0.lean ====
section
/-! SUPPORT. Tests of the model: ill-formed terms, one written-out word per row, one evaluation per row with
the result the spec prints, and a witness for each statement that has hypotheses. Expected values are from
spec/95_test_vectors.md sections 1 to 6 and the examples of spec/40_encode.md and spec/41_decode.md. -/

open Sys2Proof Sys2Proof.Machine

/-! ## Ill-formed terms are refused (R56) -/

theorem test_illformed_subnormal : (Instr.encodeSubnormal 0 0).wellFormed = false := by decide
theorem test_illformed_nan : (Instr.encodeNan 1 0).wellFormed = false := by decide
theorem test_illformed_overflow_low : (Instr.encodeOverflow 0 130 0).wellFormed = false := by decide
theorem test_illformed_overflow_high : (Instr.encodeOverflow 0 255 0).wellFormed = false := by decide
theorem test_illformed_inrange_low : (Instr.encodeInrange 0 124 0).wellFormed = false := by decide
theorem test_illformed_inrange_high : (Instr.encodeInrange 0 131 0).wellFormed = false := by decide
theorem test_illformed_denormal_low :
    (Instr.encodeUnderflowDenormal 0 119 0).wellFormed = false := by decide
theorem test_illformed_denormal_high :
    (Instr.encodeUnderflowDenormal 0 125 0).wellFormed = false := by decide
theorem test_illformed_flush_low : (Instr.encodeUnderflowZero 0 0 1).wellFormed = false := by decide
theorem test_illformed_flush_high : (Instr.encodeUnderflowZero 0 120 0).wellFormed = false := by decide
theorem test_illformed_decode_denormal : (Instr.decodeDenormal 0 0).wellFormed = false := by decide
theorem test_illformed_decode_nan : (Instr.decodeNan 0 0).wellFormed = false := by decide
theorem test_illformed_decode_normal_low : (Instr.decodeNormal 0 0 1).wellFormed = false := by decide
theorem test_illformed_decode_normal_high : (Instr.decodeNormal 0 7 0).wellFormed = false := by decide

/-! ## One word per row, written out from the table's `encoding` string -/

theorem test_word_encodeZero :
    decodeTableWord 32 0b1_00000000_00000000000000000000000 = some (.encodeZero 1) := by decide
theorem test_word_encodeSubnormal :
    decodeTableWord 32 0b0_00000000_10000000000000000000001 = some (.encodeSubnormal 0 0x400001) := by decide
theorem test_word_encodeInf :
    decodeTableWord 32 0b1_11111111_00000000000000000000000 = some (.encodeInf 1) := by decide
theorem test_word_encodeNan :
    decodeTableWord 32 0b0_11111111_00000000000000000000001 = some (.encodeNan 0 1) := by decide
theorem test_word_encodeOverflow :
    decodeTableWord 32 0b0_10000011_00000000000000000000000 = some (.encodeOverflow 0 131 0) := by decide
theorem test_word_encodeInrange :
    decodeTableWord 32 0b0_01111111_10000000000000000000000 = some (.encodeInrange 0 127 0x400000) := by decide
theorem test_word_encodeUnderflowDenormal :
    decodeTableWord 32 0b1_01111000_00000000000000000000000 = some (.encodeUnderflowDenormal 1 120 0) := by
  decide
theorem test_word_encodeUnderflowZero :
    decodeTableWord 32 0b0_01110111_11111111111111111111111 =
      some (.encodeUnderflowZero 0 119 0x7FFFFF) := by decide
theorem test_word_decodeZero : decodeTableWord 8 0b1_000_0000 = some (.decodeZero 1) := by decide
theorem test_word_decodeDenormal : decodeTableWord 8 0b1_000_1100 = some (.decodeDenormal 1 12) := by decide
theorem test_word_decodeInf : decodeTableWord 8 0b0_111_0000 = some (.decodeInf 0) := by decide
theorem test_word_decodeNan : decodeTableWord 8 0b1_111_1111 = some (.decodeNan 1 15) := by decide
theorem test_word_decodeNormal : decodeTableWord 8 0b0_011_1000 = some (.decodeNormal 0 3 8) := by decide

/-- The whole-operation rows stand for any pattern; the decoder reads such a pattern as its leaf row, which
does the same (0x3FC00000 is 1.5, in range; 0x38 is normal). -/
theorem test_word_encode : encode (.encode 0x3FC00000) = .onEncIn 0x3FC00000 ∧
    decode (encode (.encode 0x3FC00000)) = .encodeInrange 0 127 0x400000 := by decide
theorem test_word_decode : encode (.decode 0x38) = .onDecIn 0x38 ∧
    decode (encode (.decode 0x38)) = .decodeNormal 0 3 8 := by decide
theorem test_word_of_no_port : decodeBits 16 0 = .error (.noPortOfWidth 16) := by rfl

/-! ## One evaluation per row -/

/-- The ports after an outcome. -/
def portsAfter (o : Host.Outcome State Fault Refusal) : Option (F32 × MF8 × MF8 × F32) :=
  match o with
  | .next s => some (s.encIn, s.encOut, s.decIn, s.decOut)
  | _ => none

theorem test_encode_exec :
    portsAfter (exec (.encode 0x3FC40000) State.reset) = some (0x3FC40000, 0x39, 0, 0) := by decide
theorem test_encode_saturates_after_carry :
    portsAfter (exec (.encode 0xC17C0000) State.reset) = some (0xC17C0000, 0xEF, 0, 0) := by decide
theorem test_encodeZero_exec :
    portsAfter (exec (.encodeZero 1) State.reset) = some (0x80000000, 0x80, 0, 0) := by decide
theorem test_encodeSubnormal_exec :
    portsAfter (exec (.encodeSubnormal 1 0x7FFFFF) State.reset) = some (0x807FFFFF, 0x80, 0, 0) := by decide
theorem test_encodeInf_exec :
    portsAfter (exec (.encodeInf 1) State.reset) = some (0xFF800000, 0xF0, 0, 0) := by decide
theorem test_encodeNan_exec :
    portsAfter (exec (.encodeNan 0 1) State.reset) = some (0x7F800001, 0x7F, 0, 0) := by decide
theorem test_encodeOverflow_exec :
    portsAfter (exec (.encodeOverflow 0 131 0x7C0000) State.reset) = some (0x41FC0000, 0x6F, 0, 0) := by
  decide
theorem test_encodeOverflow_largest :
    portsAfter (exec (.encodeOverflow 0 254 0x7FFFFF) State.reset) = some (0x7F7FFFFF, 0x6F, 0, 0) := by
  decide
theorem test_encodeInrange_carry :
    portsAfter (exec (.encodeInrange 0 127 0x7C0000) State.reset) = some (0x3FFC0000, 0x40, 0, 0) := by
  decide
theorem test_encodeInrange_truncates :
    portsAfter (exec (.encodeInrange 0 127 0x43FFFF) State.reset) = some (0x3FC3FFFF, 0x38, 0, 0) := by
  decide
theorem test_encodeUnderflowDenormal_tie :
    portsAfter (exec (.encodeUnderflowDenormal 0 121 0x400000) State.reset) =
      some (0x3CC00000, 0x02, 0, 0) := by decide
theorem test_encodeUnderflowDenormal_last :
    portsAfter (exec (.encodeUnderflowDenormal 1 120 0) State.reset) = some (0xBC000000, 0x81, 0, 0) := by
  decide
theorem test_encodeUnderflowZero_exec :
    portsAfter (exec (.encodeUnderflowZero 0 119 0x7FFFFF) State.reset) = some (0x3BFFFFFF, 0x00, 0, 0) := by
  decide
theorem test_decode_exec :
    portsAfter (exec (.decode 0x8C) State.reset) = some (0, 0, 0x8C, 0xBE400000) := by decide
theorem test_decodeZero_exec :
    portsAfter (exec (.decodeZero 1) State.reset) = some (0, 0, 0x80, 0x80000000) := by decide
theorem test_decodeDenormal_exec :
    portsAfter (exec (.decodeDenormal 0 3) State.reset) = some (0, 0, 0x03, 0x3D400000) := by decide
theorem test_decodeDenormal_smallest :
    portsAfter (exec (.decodeDenormal 0 1) State.reset) = some (0, 0, 0x01, 0x3C800000) := by decide
theorem test_decodeInf_exec :
    portsAfter (exec (.decodeInf 1) State.reset) = some (0, 0, 0xF0, 0xFF800000) := by decide
theorem test_decodeNan_exec :
    portsAfter (exec (.decodeNan 0 1) State.reset) = some (0, 0, 0x71, 0x7F880000) := by decide
theorem test_decodeNormal_exec :
    portsAfter (exec (.decodeNormal 1 6 15) State.reset) = some (0, 0, 0xEF, 0xC1780000) := by decide

/-- Fields outside a row's condition: the unit answers `ENCODE` of the operand it was given, 0.125. -/
theorem test_illformed_term_still_settles :
    portsAfter (exec (.encodeOverflow 0 124 0) State.reset) = some (0x3E000000, 0x08, 0, 0) := by decide

/-! ## Steps and programs -/

theorem test_step_runs_placed_word :
    portsAfter (step (State.reset.withFetchWord 32 0x3DCCCCCD)) = some (0x3DCCCCCD, 0x06, 0, 0) := by decide
theorem test_step_runs_placed_byte :
    portsAfter (step (State.reset.withFetchWord 8 0x6F)) = some (0, 0, 0x6F, 0x41780000) := by decide
theorem test_step_reads_the_other_unit :
    portsAfter (step { State.reset with encOut := 0x39, stim := [.decode .encOut] }) =
      some (0, 0x39, 0x39, 0x3FC80000) := by decide
/-- The connected decoder follows a later `ENCODE`: program P2 line 5 (15.75 gives 0x6F, 15.5), R119. -/
theorem test_wired_decoder_follows :
    portsAfter (step { State.reset with wiring := .encToDec, stim := [.encode (.lit 0x417C0000)] }) =
      some (0x417C0000, 0x6F, 0x6F, 0x41780000) := by decide
/-- The connected encoder follows `dec_in`: program P5 at b = 0x71, whose NaN gets the payload 1111, R119. -/
theorem test_wired_encoder_follows :
    portsAfter (step { State.reset with wiring := .decToEnc, stim := [.decode (.lit 0x71)] }) =
      some (0x7F880000, 0x7F, 0x71, 0x7F880000) := by decide
/-- Connecting carries the present value of the output, here 0x38, at once. -/
theorem test_connect_carries :
    step { State.reset with encIn := 0x3FC00000, encOut := 0x38, stim := [.connect .encToDec] } =
      .next ⟨0x3FC00000, 0x38, 0x38, 0x3FC00000, .encToDec, []⟩ := by rfl
theorem test_step_idle : step State.reset = .next State.reset := by rfl
/-- Program P1 of spec/95_test_vectors.md, with names 0 to 3 for a, b, c, d. -/
theorem test_program_P1 :
    runLines [.encode 0 (.lit 0x3FC00000), .decode 1 (.name 0), .encode 2 (.lit 0x41000000),
      .decode 3 (.name 2)] { bytes := [], words := [] } =
    some { bytes := [(2, 0x60), (0, 0x38)], words := [(3, 0x41000000), (1, 0x3FC00000)] } := by decide
theorem test_program_unbound_name :
    runLine (.decode 0 (.name 5)) { bytes := [], words := [] } = none := by decide

/-! ## Witnesses: hypotheses of the statements are met -/

theorem witness_StepKeepsPortsSettled :
    PortsSettled (State.reset.withFetchWord 32 0x3F800000) ∧
    step (State.reset.withFetchWord 32 0x3F800000) = .next ⟨0x3F800000, 0x30, 0, 0, .apart, []⟩ :=
  ⟨by decide, by rfl⟩

/-- A settled state with each wire in place. -/
theorem witness_wired_states :
    PortsSettled ⟨0x3FC00000, 0x38, 0x38, 0x3FC00000, .encToDec, []⟩ ∧
    PortsSettled ⟨0x3FC00000, 0x38, 0x38, 0x3FC00000, .decToEnc, []⟩ := by decide

theorem witness_StepRunsTheDecodedOperand :
    State.reset.stim = [] ∧
    ({ State.reset with stim := [.encode .decOut] } : State).stim = .encode .decOut :: [] ∧
    ({ State.reset with stim := [.connect .decToEnc] } : State).stim = .connect .decToEnc :: [] ∧
    ({ State.reset with stim := [.decode .encOut] } : State).stim = .decode .encOut :: [] := by decide

/-- With `witness_wired_states` and `State.reset`, a row of each unit under each connection. -/
theorem witness_EveryRowAgreesWithItsOperation :
    State.reset.wiring = .apart ∧
    encode (.encodeInrange 0 127 0) = .onEncIn 0x3F800000 ∧ encode (.decodeNormal 0 3 0) = .onDecIn 0x30 := by
  decide

theorem witness_EveryStimulusListCompletes : PortsSettled State.reset ∧ State.reset.stim = [] := by decide

theorem witness_UnitFrames :
    OnEnc (.encodeZero 0) ∧ exec (.encodeZero 0) State.reset = .next ⟨0, 0, 0, 0, .apart, []⟩ ∧
    OnDec (.decodeNormal 0 3 0) ∧
    exec (.decodeNormal 0 3 0) State.reset = .next ⟨0, 0, 0x30, 0x3F800000, .apart, []⟩ :=
  ⟨⟨_, rfl⟩, by rfl, ⟨_, rfl⟩, by rfl⟩

theorem witness_UnitFrames_wired :
    exec (.encodeInrange 0 127 0) ⟨0x3FC00000, 0x38, 0x38, 0x3FC00000, .encToDec, []⟩ =
      .next ⟨0x3F800000, 0x30, 0x30, 0x3F800000, .encToDec, []⟩ ∧
    exec (.decodeNormal 0 3 0) ⟨0x3FC00000, 0x38, 0x38, 0x3FC00000, .decToEnc, []⟩ =
      .next ⟨0x3F800000, 0x30, 0x30, 0x3F800000, .decToEnc, []⟩ := ⟨by rfl, by rfl⟩

theorem witness_UnitsAreIndependent :
    OnEnc (.encodeInrange 0 127 0) ∧ OnDec (.decodeNormal 0 3 0) ∧
    exec (.encodeInrange 0 127 0) State.reset = .next ⟨0x3F800000, 0x30, 0, 0, .apart, []⟩ ∧
    exec (.decodeNormal 0 3 0) ⟨0x3F800000, 0x30, 0, 0, .apart, []⟩ =
      .next ⟨0x3F800000, 0x30, 0x30, 0x3F800000, .apart, []⟩ ∧
    exec (.decodeNormal 0 3 0) State.reset = .next ⟨0, 0, 0x30, 0x3F800000, .apart, []⟩ ∧
    exec (.encodeInrange 0 127 0) ⟨0, 0, 0x30, 0x3F800000, .apart, []⟩ =
      .next ⟨0x3F800000, 0x30, 0x30, 0x3F800000, .apart, []⟩ :=
  ⟨⟨_, rfl⟩, ⟨_, rfl⟩, by rfl, by rfl, by rfl, by rfl⟩

theorem witness_FieldExtractionLosesNothing : 7 < 8 ∧ 22 < 23 ∧ 2 < 3 ∧ 3 < 4 := by decide

theorem witness_AssemblyPlacesTheFields :
    (mf8OfMag 1 127).toNat = 255 ∧ mf8OfMag 0 (16 * 6 + 15 + 1) = mf8Word 0 7 0 ∧
    (f32OfFields 1 255 0x7FFFFF).toNat = 0xFFFFFFFF := by decide

theorem witness_DecodeOfEncodeIsTheInstruction :
    (Instr.encodeUnderflowDenormal 1 124 0x7FFFFF).wellFormed = true ∧
    isClassRow (.encodeUnderflowDenormal 1 124 0x7FFFFF) = true := by decide

theorem witness_EveryOperandIsOneRow :
    (Instr.decodeNan 0 1).wellFormed = true ∧ isClassRow (.decodeNan 0 1) = true ∧
    encode (.decodeNan 0 1) = .onDecIn 0x71 := by decide

theorem witness_nonzero_mantissa : (1 : BitVec 23) ≠ 0 ∧ (0x7FFFFF : BitVec 23) ≠ 0 ∧
    (1 : BitVec 4) ≠ 0 ∧ (15 : BitVec 4) ≠ 0 := by decide

theorem witness_EncodeInfinity : mf8Exp (encodeWord 0x7F800000) = 7 ∧ mf8Exp (encodeWord 0xFF800001) = 7 := by
  decide

theorem witness_PayloadMattersOnlyForNan :
    f32ClassOf 0x7F800000 ≠ .nan ∧ f32ClassOf 0x7F800001 = .nan := by decide

theorem witness_EncodeOverflowSaturates :
    131 ≤ (131 : BitVec 8).toNat ∧ (131 : BitVec 8).toNat ≤ 254 ∧
    131 ≤ (254 : BitVec 8).toNat ∧ (254 : BitVec 8).toNat ≤ 254 := by decide

/-- Both ends of the range, the carry out of `top4 = 1111`, and a code that is not 112. -/
theorem witness_EncodeInrangeRoundsWithCarry :
    125 ≤ (125 : BitVec 8).toNat ∧ (130 : BitVec 8).toNat ≤ 130 ∧
    (0x7C0000 : BitVec 23).toNat >>> 19 = 0b1111 ∧ ((0x7C0000 : BitVec 23).toNat >>> 18) &&& 1 = 1 ∧
    16 * ((125 : BitVec 8).toNat - 124) + (0x7C0000 : BitVec 23).toNat >>> 19 +
      (((0x7C0000 : BitVec 23).toNat >>> 18) &&& 1) ≠ 112 ∧
    16 * ((130 : BitVec 8).toNat - 124) + (0x7BFFFF : BitVec 23).toNat >>> 19 +
      (((0x7BFFFF : BitVec 23).toNat >>> 18) &&& 1) ≠ 112 := by decide

theorem witness_EncodeInrangeSaturatesAfterCarry :
    k1 130 0x7C0000 = 0x70 ∧ k1 130 0x7FFFFF = 0x70 ∧ k1 130 0x7BFFFF ≠ 0x70 ∧
    magBits (f32Word 1 130 0x7C0000) = 0x417C0000 := by decide

/-- Each of the five exponents of the table, with the mantissa at both ends. -/
theorem witness_EncodeUnderflowShiftsAndRounds :
    ([124, 123, 122, 121, 120] : List (BitVec 8)).all (fun E => 120 ≤ E.toNat ∧ E.toNat ≤ 124) = true ∧
    underflowDenormalMag 124 0 = 8 ∧ underflowDenormalMag 124 0x7FFFFF = 16 ∧
    underflowDenormalMag 123 0 = 4 ∧ underflowDenormalMag 123 0x7FFFFF = 8 ∧
    underflowDenormalMag 122 0 = 2 ∧ underflowDenormalMag 122 0x7FFFFF = 4 ∧
    underflowDenormalMag 121 0 = 1 ∧ underflowDenormalMag 121 0x7FFFFF = 2 ∧
    underflowDenormalMag 120 0 = 1 ∧ underflowDenormalMag 120 0x7FFFFF = 1 := by decide

theorem witness_DenormalCarryGivesSmallestNormal :
    120 ≤ (124 : BitVec 8).toNat ∧ (124 : BitVec 8).toNat = 124 ∧ 0x780000 ≤ (0x780000 : BitVec 23).toNat ∧
    retained 124 0x780000 + highestDiscarded 124 0x780000 = 16 ∧
    retained 124 0x77FFFF + highestDiscarded 124 0x77FFFF = 15 := by decide

theorem witness_EncodeUnderflowZeroGivesSignedZero :
    1 ≤ (1 : BitVec 8).toNat ∧ (1 : BitVec 8).toNat ≤ 119 ∧
    1 ≤ (119 : BitVec 8).toNat ∧ (119 : BitVec 8).toNat ≤ 119 := by decide

theorem witness_DecodeDenormalNormalises :
    2 ^ 0 ≤ (1 : BitVec 4).toNat ∧ (1 : BitVec 4).toNat < 2 ^ (0 + 1) ∧
    2 ^ 3 ≤ (15 : BitVec 4).toNat ∧ (15 : BitVec 4).toNat < 2 ^ (3 + 1) := by decide

theorem witness_DecodeNormalRebiases :
    1 ≤ (1 : BitVec 3).toNat ∧ (1 : BitVec 3).toNat ≤ 6 ∧ 1 ≤ (6 : BitVec 3).toNat ∧ (6 : BitVec 3).toNat ≤ 6 := by
  decide

theorem witness_EncoderArithmeticNeverWraps :
    f32Class 1 0 = .underflowZero ∧ f32Class 119 0 = .underflowZero ∧
    f32Class 120 0 = .underflowDenormal ∧ f32Class 124 0 = .underflowDenormal ∧
    f32Class 125 0 = .inrange ∧ f32Class 130 0x7FFFFF = .inrange ∧ f32Class 254 0 = .overflow := by decide

theorem witness_DecoderIsExactOnBits :
    mf8ClassOf 0x10 = .normal ∧ mf8ClassOf 0x6F = .normal ∧ mf8ClassOf 0x01 = .denormal ∧
    mf8ClassOf 0x0F = .denormal ∧ mf8ClassOf 0x80 = .zero := by decide

/-- Pairs of operands that meet the hypotheses of the clauses of `EncodeDependsOnTopBits`. The first pair meets
those of the first and of the in-range clause; the others follow in order. -/
theorem witness_EncodeDependsOnTopBits :
    (f32Sign 0x3FC3FFFF = f32Sign 0x3FC00001 ∧ f32Exp 0x3FC3FFFF = f32Exp 0x3FC00001 ∧
      top4 (f32Man 0x3FC3FFFF) = top4 (f32Man 0x3FC00001) ∧
      rbit (f32Man 0x3FC3FFFF) = rbit (f32Man 0x3FC00001) ∧
      f32Man 0x3FC3FFFF ≠ 0 ∧ f32Man 0x3FC00001 ≠ 0 ∧ f32ClassOf 0x3FC3FFFF = .inrange) ∧
    (f32Sign 0x00000000 = f32Sign 0x007FFFFF ∧ f32Exp 0x00000000 = 0 ∧ f32Exp 0x007FFFFF = 0) ∧
    (f32Sign 0x7F800001 = f32Sign 0x7FFFFFFF ∧ f32Exp 0x7F800001 = 0xFF ∧ f32Exp 0x7FFFFFFF = 0xFF ∧
      f32Man 0x7F800001 ≠ 0 ∧ f32Man 0x7FFFFFFF ≠ 0) ∧
    (f32Sign 0x41800000 = f32Sign 0x7F7FFFFF ∧ f32ClassOf 0x41800000 = .overflow ∧
      f32ClassOf 0x7F7FFFFF = .overflow) ∧
    (f32Sign 0x00800000 = f32Sign 0x3BFFFFFF ∧ f32ClassOf 0x00800000 = .underflowZero ∧
      f32ClassOf 0x3BFFFFFF = .underflowZero) ∧
    (f32Sign 0x3E000000 = f32Sign 0x3E07FFFF ∧ f32Exp 0x3E000000 = f32Exp 0x3E07FFFF ∧
      f32ClassOf 0x3E000000 = .underflowDenormal ∧
      top4 (f32Man 0x3E000000) = top4 (f32Man 0x3E07FFFF)) ∧
    ((0x7F7C0000 : F32).toNat >>> 18 = (0x7F7FFFFF : F32).toNat >>> 18 ∧ f32Exp 0x7F7C0000 ≠ 0xFF ∧
      f32Exp 0x7F7FFFFF ≠ 0xFF) := by decide

/-- Both ends of every row of R92. -/
theorem witness_ThresholdsOfEncode :
    magBits 0x80000000 = 0 ∧ magBits 0x00000001 = 0x00000001 ∧ magBits 0x007FFFFF = 0x007FFFFF ∧
    magBits 0x00800000 = 0x00800000 ∧ magBits 0x3BFFFFFF = 0x3BFFFFFF ∧
    magBits 0x3C000000 = 0x3C000000 ∧ magBits 0x3E77FFFF = 0x3E77FFFF ∧
    magBits 0x3E780000 = 0x3E780000 ∧ magBits 0x3E7FFFFF = 0x3E7FFFFF ∧
    magBits 0x3E800000 = 0x3E800000 ∧ magBits 0x417BFFFF = 0x417BFFFF ∧
    magBits 0x417C0000 = 0x417C0000 ∧ magBits 0x417FFFFF = 0x417FFFFF ∧
    magBits 0x41800000 = 0x41800000 ∧ magBits 0x7F7FFFFF = 0x7F7FFFFF ∧
    magBits 0xFF800000 = 0x7F800000 ∧ magBits 0xFF800001 = 0x7F800001 := by decide

theorem witness_SpecialOperandsStaySpecial :
    (0b1111 : BitVec 4) ≠ 0 ∧ f32Exp 0x7F800000 = 0xFF ∧ mf8Exp 0x70 = 7 := by decide

/-- The values of the float32 patterns that the witnesses use (R52). -/
theorem test_val32_powers :
    val32 0x3C000000 = some ((2 : ℚ) ^ (-7 : ℤ)) ∧ val32 0x3B800000 = some ((2 : ℚ) ^ (-8 : ℤ)) ∧
    val32 0x3F800000 = some 1 ∧ val32 0x41800000 = some 16 ∧
    val32 0x00000001 = some ((2 : ℚ) ^ (-149 : ℤ)) := by
  have h0 : signFactor 0 = 1 := by decide
  refine ⟨?_, ?_, ?_, ?_, ?_⟩
  · rw [val32_normal _ 0 120 0 (by decide) (by decide) (by decide) (by decide) (by decide)]; norm_num [h0]
  · rw [val32_normal _ 0 119 0 (by decide) (by decide) (by decide) (by decide) (by decide)]; norm_num [h0]
  · rw [val32_normal _ 0 127 0 (by decide) (by decide) (by decide) (by decide) (by decide)]; norm_num [h0]
  · rw [val32_normal _ 0 131 0 (by decide) (by decide) (by decide) (by decide) (by decide)]; norm_num [h0]
  · rw [val32_small _ 0 1 (by decide) (by decide) (by decide)]; norm_num [h0]

/-- A value on each side of 2^-7: 2^-7 itself, and 2^-8; and just below 1/4. -/
theorem witness_SubnormalsAndZeros :
    f32ClassOf 0x00000001 = .subnormal ∧
    (f32ClassOf 0x3C000000 = .underflowDenormal ∧ val32 0x3C000000 = some ((2 : ℚ) ^ (-7 : ℤ)) ∧
      (2 : ℚ) ^ (-7 : ℤ) ≤ |(2 : ℚ) ^ (-7 : ℤ)| ∧ |(2 : ℚ) ^ (-7 : ℤ)| < 1 / 4) ∧
    (f32ClassOf 0x3B800000 = .underflowZero ∧ val32 0x3B800000 = some ((2 : ℚ) ^ (-8 : ℤ)) ∧
      |(2 : ℚ) ^ (-8 : ℤ)| < (2 : ℚ) ^ (-7 : ℤ)) ∧
    mf8ClassOf 0x01 = .denormal ∧ mf8ClassOf 0x8F = .denormal := by
  exact ⟨by decide, ⟨by decide, test_val32_powers.1, le_abs_self _, by norm_num [abs_of_pos]⟩,
    ⟨by decide, test_val32_powers.2.1, by norm_num [abs_of_pos]⟩, by decide, by decide⟩

theorem witness_ValueSetIsStrictlyIncreasing :
    (1 ≤ 31 ∧ 31 ≤ 31) ∧ (1 ≤ 6 ∧ 6 ≤ 6 ∧ 15 ≤ 15) ∧ (0x6E < 0x6F ∧ 0x6F ≤ 0x6F) := by decide

theorem witness_DecodeIsExact :
    mf8Exp 0x6F ≠ 7 ∧ (0x6E : MF8).toNat < (0x6F : MF8).toNat ∧ (0x6F : MF8).toNat ≤ 0x6F := by decide

/-- The largest finite operand, 1.0 and the smallest subnormal have values. -/
theorem witness_finite_operands :
    val32 0x7F7FFFFF ≠ none ∧ val32 0x3F800000 = some 1 ∧ val32 0x00000001 = some ((2 : ℚ) ^ (-149 : ℤ)) := by
  exact ⟨fun h => absurd ((val32_eq_none_iff _).1 h) (by decide), test_val32_powers.2.2.1,
    test_val32_powers.2.2.2.2⟩

/-- The first float32 above 15.5 and the last below 2^-7 meet the two saturation clauses of
`EncodeRoundsToNearestTiesAway`; 15.5 and 2^-7 themselves do not. -/
theorem witness_EncodeRoundsToNearestTiesAway :
    (∃ x, val32 0x41780001 = some x ∧ 31 / 2 < |x|) ∧
    (∃ x, val32 0x41780000 = some x ∧ ¬ 31 / 2 < |x|) ∧
    (∃ x, val32 0x3BFFFFFF = some x ∧ |x| < (2 : ℚ) ^ (-7 : ℤ)) ∧
    (∃ x, val32 0x3C000000 = some x ∧ ¬ |x| < (2 : ℚ) ^ (-7 : ℤ)) := by
  have h0 : signFactor 0 = 1 := by decide
  refine ⟨⟨_, val32_normal _ 0 130 0x780001 (by decide) (by decide) (by decide) (by decide) (by decide), ?_⟩,
    ⟨_, val32_normal _ 0 130 0x780000 (by decide) (by decide) (by decide) (by decide) (by decide), ?_⟩,
    ⟨_, val32_normal _ 0 119 0x7FFFFF (by decide) (by decide) (by decide) (by decide) (by decide), ?_⟩,
    ⟨_, val32_normal _ 0 120 0 (by decide) (by decide) (by decide) (by decide) (by decide), ?_⟩⟩ <;>
  norm_num [h0, abs_of_pos]

theorem witness_MidpointIsTheSmallestOperand :
    f32Sign 0x3C000000 = 0 ∧ encodeWord 0x3C000000 = BitVec.ofNat 8 1 ∧
    f32Sign 0x41740000 = 0 ∧ encodeWord 0x41740000 = BitVec.ofNat 8 0x6F := by decide

theorem witness_EncodeIsMonotone :
    (0 : F32).toNat ≤ (0x7F800000 : F32).toNat ∧ (0x7F800000 : F32).toNat ≤ 0x7F800000 := by decide

theorem witness_EncodeAfterDecode : mf8ClassOf 0xF0 ≠ .nan ∧ mf8ClassOf 0x71 = .nan := by decide

theorem witness_ProgramLinesRunOnTheMachine :
    lineStimuli (.rt32 3 (.lit 0x3FC40000)) { bytes := [], words := [] } =
      some [.encode (.lit 0x3FC40000), .decode .encOut] ∧
    lineStimuli (.rt8 3 (.name 1)) { bytes := [(1, 0x38)], words := [] } =
      some [.decode (.lit 0x38), .encode .decOut] ∧
    wiredStimuli (.rt32 3 (.lit 0x3FC40000)) { bytes := [], words := [] } =
      some [.connect .encToDec, .encode (.lit 0x3FC40000)] := by decide

/-- Both ends of the operands of each situation of R102. -/
theorem witness_SituationsAreResolvedSilently :
    showsSituation .overflow 0x41800000 = true ∧ showsSituation .overflow 0x7F7FFFFF = true ∧
    showsSituation .overflowByRounding 0x417C0000 = true ∧
    showsSituation .overflowByRounding 0x417FFFFF = true ∧
    showsSituation .underflow 0x3C000000 = true ∧ showsSituation .underflow 0x3E7FFFFF = true ∧
    showsSituation .totalUnderflow 0x00800000 = true ∧ showsSituation .totalUnderflow 0x3BFFFFFF = true ∧
    showsSituation .subnormalLoss 0x00000001 = true ∧ showsSituation .subnormalLoss 0x007FFFFF = true ∧
    showsSituation .invalid 0x7F800001 = true ∧ showsSituation .invalid 0x7FC00000 = false ∧
    showsSituation .nanPayloadLoss 0x7FFFFFFF = true ∧
    showsSituation .inexact 0x3E800001 = true ∧ 125 ≤ (f32Exp 0x3E800001).toNat ∧
    showsSituation .inexact 0x417FFFFF = true ∧ showsSituation .inexact 0x41780000 = false ∧
    showsSituation .inexact 0x3C000000 = true ∧ (f32Exp 0x3C000000).toNat ≤ 124 ∧
    showsSituation .inexact 0x3E7FFFFF = true ∧ showsSituation .inexact 0x3E700000 = false := by decide

theorem witness_InexactExactlyWhenTheValueChanges :
    f32ClassOf 0x3FC40000 = .inrange ∧ showsSituation .inexact 0x3FC40000 = true ∧
    f32ClassOf 0x3E000000 = .underflowDenormal ∧ showsSituation .inexact 0x3E000000 = false := by decide
end

section
/-! The fields of an operand as shifts, masks and bits of it (spec/30_encoding.md R40, R42), assembly of an
operand from field values (R43, R49), and the statements on extraction and assembly. -/

namespace Sys2Proof

/-! ## Slices -/

/-- A slice read as a number is a shift and a mask. -/
theorem extractLsb'_toNat_mask {n : Nat} (x : BitVec n) (start len : Nat) :
    (x.extractLsb' start len).toNat = (x.toNat >>> start) &&& (2 ^ len - 1) := by
  rw [BitVec.extractLsb'_toNat, Nat.and_two_pow_sub_one_eq_mod]

/-- The slice that ends at the top bit needs no mask. -/
theorem extractLsb'_toNat_top {start len : Nat} (x : BitVec (start + len)) :
    (x.extractLsb' start len).toNat = x.toNat >>> start := by
  rw [BitVec.extractLsb'_toNat, Nat.mod_eq_of_lt]
  rw [Nat.shiftRight_eq_div_pow, Nat.div_lt_iff_lt_mul (by positivity), Nat.mul_comm, ← Nat.pow_add]
  exact x.isLt

theorem getLsbD_extractLsb'_of_lt {n i len : Nat} (x : BitVec n) (start : Nat) (h : i < len) :
    (x.extractLsb' start len).getLsbD i = x.getLsbD (start + i) := by
  simp [h]

/-! ## Extraction -/

/-- `uint(S) = uint(w) >> 31` (R40). -/
theorem f32Sign_toNat_shift (w : F32) : (f32Sign w).toNat = w.toNat >>> 31 :=
  extractLsb'_toNat_top (start := 31) (len := 1) w

/-- `uint(E) = (uint(w) >> 23) & 0xFF` (R40). -/
theorem f32Exp_toNat_mask (w : F32) : (f32Exp w).toNat = (w.toNat >>> 23) &&& 0xFF :=
  extractLsb'_toNat_mask w 23 8

/-- `uint(F) = uint(w) & 0x7FFFFF` (R40). -/
theorem f32Man_toNat_mask (w : F32) : (f32Man w).toNat = w.toNat &&& 0x7FFFFF :=
  extractLsb'_toNat_mask w 0 23

theorem f32Sign_getLsbD (w : F32) : (f32Sign w).getLsbD 0 = w.getLsbD 31 :=
  getLsbD_extractLsb'_of_lt w 31 Nat.one_pos

theorem f32Exp_getLsbD (w : F32) {i : Nat} (h : i < 8) : (f32Exp w).getLsbD i = w.getLsbD (23 + i) :=
  getLsbD_extractLsb'_of_lt w 23 h

theorem f32Man_getLsbD (w : F32) {i : Nat} (h : i < 23) : (f32Man w).getLsbD i = w.getLsbD i := by
  rw [f32Man, getLsbD_extractLsb'_of_lt w 0 h, Nat.zero_add]

/-- `uint(s) = uint(b) >> 7` (R42). -/
theorem mf8Sign_toNat_shift (b : MF8) : (mf8Sign b).toNat = b.toNat >>> 7 :=
  extractLsb'_toNat_top (start := 7) (len := 1) b

/-- `uint(e) = (uint(b) >> 4) & 7` (R42). -/
theorem mf8Exp_toNat_mask (b : MF8) : (mf8Exp b).toNat = (b.toNat >>> 4) &&& 7 :=
  extractLsb'_toNat_mask b 4 3

/-- `uint(m) = uint(b) & 15` (R42). -/
theorem mf8Man_toNat_mask (b : MF8) : (mf8Man b).toNat = b.toNat &&& 15 :=
  extractLsb'_toNat_mask b 0 4

theorem mf8Sign_getLsbD (b : MF8) : (mf8Sign b).getLsbD 0 = b.getLsbD 7 :=
  getLsbD_extractLsb'_of_lt b 7 Nat.one_pos

theorem mf8Exp_getLsbD (b : MF8) {i : Nat} (h : i < 3) : (mf8Exp b).getLsbD i = b.getLsbD (4 + i) :=
  getLsbD_extractLsb'_of_lt b 4 h

theorem mf8Man_getLsbD (b : MF8) {i : Nat} (h : i < 4) : (mf8Man b).getLsbD i = b.getLsbD i := by
  rw [mf8Man, getLsbD_extractLsb'_of_lt b 0 h, Nat.zero_add]

/-- Settles O9: the concatenations are the laws that assembly undoes extraction, and each field is a slice,
which is a shift and a mask as a number. -/
theorem fieldExtractionLosesNothing : Obligations.FieldExtractionLosesNothing := by
  unfold Obligations.FieldExtractionLosesNothing
  constructor
  · intro w
    exact ⟨(f32Word_fields w).symm, f32Sign_toNat_shift w, f32Exp_toNat_mask w, f32Man_toNat_mask w,
      f32Sign_getLsbD w, fun _ => f32Exp_getLsbD w, fun _ => f32Man_getLsbD w⟩
  · intro b
    exact ⟨(mf8Word_fields b).symm, mf8Sign_toNat_shift b, mf8Exp_toNat_mask b, mf8Man_toNat_mask b,
      mf8Sign_getLsbD b, fun _ => mf8Exp_getLsbD b, fun _ => mf8Man_getLsbD b⟩

/-! ## Assembly -/

/-- The byte of fields `e`, `m` has the magnitude code `16 * e + m` (R43): both patterns are one number. -/
theorem mf8Word_eq_mf8OfMag (s : Sign) (e : BitVec 3) (m : BitVec 4) :
    mf8Word s e m = mf8OfMag s (16 * e.toNat + m.toNat) := by
  have hcode : 16 * e.toNat + m.toNat ≤ 127 := by
    have := e.isLt
    have := m.isLt
    omega
  apply BitVec.eq_of_toNat_eq
  rw [mf8Word_toNat, mf8OfMag_toNat s _ hcode, Nat.add_assoc]

/-- The carry out of an all-ones mantissa field goes into the exponent field (R43): the codes of the binades
are contiguous. -/
theorem mf8OfMag_carry (s : Sign) {e : Nat} (he : e ≤ 6) :
    mf8OfMag s (16 * e + 15 + 1) = mf8Word s (BitVec.ofNat 3 (e + 1)) 0 := by
  have hfield : (BitVec.ofNat 3 (e + 1)).toNat = e + 1 := by
    rw [BitVec.toNat_ofNat, Nat.mod_eq_of_lt (by omega)]
  rw [mf8Word_eq_mf8OfMag, hfield]
  rfl

/-- `uint(word) = 2^31 * uint(S) + 2^23 * E + F` for field values given as numbers (R49). -/
theorem f32OfFields_toNat (S : Sign) {E F : Nat} (hE : E ≤ 255) (hF : F < 2 ^ 23) :
    (f32OfFields S E F).toNat = 2 ^ 31 * S.toNat + 2 ^ 23 * E + F := by
  have hE' : E < 2 ^ 8 := by omega
  rw [f32OfFields, f32Word_toNat, BitVec.toNat_ofNat, BitVec.toNat_ofNat, Nat.mod_eq_of_lt hE',
    Nat.mod_eq_of_lt hF]

/-- Settles O10: the patterns are their definitions, and the rest is the number that each stands for. -/
theorem assemblyPlacesTheFields : Obligations.AssemblyPlacesTheFields := by
  unfold Obligations.AssemblyPlacesTheFields
  refine ⟨?byte, mf8Word_eq_mf8OfMag, fun s _ he => mf8OfMag_carry s he, ?word⟩
  case byte =>
    intro s k hk
    exact ⟨rfl, mf8OfMag_toNat s k hk⟩
  case word =>
    intro S E F hE hF
    exact ⟨rfl, f32OfFields_toNat S hE hF⟩

end Sys2Proof
end

section
/-! What the rows of `ENCODE` answer (spec/40_encode.md R59 to R66): the magnitude code of a class, its place in
the byte, and the statements on zero, infinity and in-range operands; and the sign that both operations copy (R60,
spec/41_decode.md R76). -/

namespace Sys2Proof.Machine

/-! ## A row and the operation on the row's operand -/

/-- A row that gives the operation's code `k`, and `ENCODE` on the row's operand, both drive the encoder to the
byte `y` of that code. The byte is a variable because the rules write it out, each in its own form. -/
theorem encodeRow_outcome (c : F32Class) {k : Nat} {S : Sign} {E : BitVec 8} {F : BitVec 23} {y : MF8}
    (s : State) (hk : encodeMag Config.nanPayload E F = k) (hy : mf8OfMag S k = y) :
    evalEncodeRow c k S E F s = .next (driveEncIn (f32Word S E F) y s) ∧
    execEncode (f32Word S E F) s = .next (driveEncIn (f32Word S E F) y s) := by
  have hbyte : encodeWord (f32Word S E F) = y := by
    rw [encodeWord, encodeWith_f32Word, hk, hy]
  constructor
  · rw [evalEncodeRow_eq c k S E F s fun _ => hk.symm, hbyte]
  · rw [execEncode, hbyte]

/-! ## Magnitude codes -/

theorem encodeMag_of_inrange (np : BitVec 4) {E : BitVec 8} {F : BitVec 23} (h : f32Class E F = .inrange) :
    encodeMag np E F = inrangeMag E F := by
  rw [encodeMag, h]

theorem inrangeMag_eq_k1 {E : BitVec 8} {F : BitVec 23} (h : k1 E F ≠ 112) : inrangeMag E F = k1 E F :=
  if_neg h

/-- `k1` with the shifts and the mask of R66. -/
theorem k1_eq_shift (E : BitVec 8) (F : BitVec 23) :
    k1 E F = 16 * (E.toNat - 124) + F.toNat >>> 19 + ((F.toNat >>> 18) &&& 1) := by
  rw [k1_eq, Nat.and_one_is_mod, Nat.shiftRight_eq_div_pow, Nat.shiftRight_eq_div_pow]

/-- Only infinity and NaN give a code beyond the largest finite one (R63). -/
theorem encodeMag_le_maxFinite (np : BitVec 4) {E : BitVec 8} {F : BitVec 23}
    (hinf : f32Class E F ≠ .inf) (hnan : f32Class E F ≠ .nan) :
    encodeMag np E F ≤ Config.mfMaxFinite := by
  unfold encodeMag
  cases h : f32Class E F with
  | zero => exact Nat.zero_le _
  | subnormal => exact Nat.zero_le _
  | inf => exact absurd h hinf
  | nan => exact absurd h hnan
  | overflow => exact Nat.le_refl _
  | inrange => exact inrangeMag_le E F ((f32Class_inrange_iff E F).1 h).2
  | underflowDenormal =>
    obtain ⟨hlow, hhigh⟩ := (f32Class_underflowDenormal_iff E F).1 h
    exact (underflowDenormalMag_range E F hlow hhigh).2.trans (by decide)
  | underflowZero => exact Nat.zero_le _

/-! ## The code in the byte -/

/-- The exponent field of a byte is its code without the four mantissa bits (R43). -/
theorem mf8Exp_mf8OfMag_toNat (s : Sign) {k : Nat} (hk : k ≤ 127) :
    (mf8Exp (mf8OfMag s k)).toNat = k / 16 := by
  have hs := s.isLt
  rw [mf8Exp, BitVec.extractLsb'_toNat, mf8OfMag_toNat s k hk, Nat.shiftRight_eq_div_pow]
  omega

@[simp] theorem mf8Mag_mf8OfMag (s : Sign) (k : Nat) : mf8Mag (mf8OfMag s k) = BitVec.ofNat 7 k :=
  BitVec.extractLsb'_append_eq_right

/-- An operand whose result has exponent field 7 is infinity or NaN (R63). -/
theorem inf_or_nan_of_encodeWith_exp (np : BitVec 4) (w : F32) (h : mf8Exp (encodeWith np w) = 7) :
    f32ClassOf w = .inf ∨ f32ClassOf w = .nan := by
  by_contra hother
  obtain ⟨hinf, hnan⟩ := not_or.1 hother
  have hmag : encodeMag np (f32Exp w) (f32Man w) ≤ 111 := encodeMag_le_maxFinite np hinf hnan
  have hfield := mf8Exp_mf8OfMag_toNat (f32Sign w) (hmag.trans (by decide))
  rw [← encodeWith, h] at hfield
  have : encodeMag np (f32Exp w) (f32Man w) / 16 ≠ 7 := by omega
  exact this hfield.symm

/-- Settles O17: the code of infinity is `0x70`, which is exponent field 7 and mantissa 0, and every class but
infinity and NaN has a code below it. -/
theorem encodeInfinity : Obligations.EncodeInfinity := by
  unfold Obligations.EncodeInfinity
  refine ⟨?rows, inf_or_nan_of_encodeWith_exp Config.nanPayload, by decide, by decide⟩
  case rows =>
    intro S s
    have hbyte : mf8OfMag S infMag = S ++ 0b111#3 ++ 0b0000#4 := (mf8Word_eq_mf8OfMag S 7 0).symm
    exact encodeRow_outcome .inf s rfl hbyte

/-- Settles O21: the statement's `k` is the model's `k1`, which is the code of the class unless it is 112. -/
theorem encodeInrangeRoundsWithCarry : Obligations.EncodeInrangeRoundsWithCarry := by
  unfold Obligations.EncodeInrangeRoundsWithCarry
  refine ⟨by decide, ?_⟩
  intro S E F s hlow hhigh e' top rb k
  have he : 1 ≤ e' ∧ e' ≤ 6 := by
    simp only [e']
    omega
  have htop : top ≤ 15 := by
    have := F.isLt
    simp only [top, Nat.shiftRight_eq_div_pow]
    omega
  have hrb : rb ≤ 1 := Nat.and_le_right
  have hk : k = 16 * e' + top + rb := rfl
  refine ⟨by omega, by omega, by omega, by omega, ?carry, ?rows⟩
  case carry =>
    intro _ _
    omega
  case rows =>
    intro hne
    have hk1 : k1 E F = k := k1_eq_shift E F
    have hcode : inrangeMag E F = k := (inrangeMag_eq_k1 (hk1.trans_ne hne)).trans hk1
    have hclass : f32Class E F = .inrange := (f32Class_inrange_iff E F).2 ⟨hlow, hhigh⟩
    exact encodeRow_outcome .inrange s (encodeMag_of_inrange _ hclass) (congrArg (mf8OfMag S) hcode)

/-- Settles O15: zero has the magnitude code 0. -/
theorem encodeZeroGivesSignedZero : Obligations.EncodeZeroGivesSignedZero := by
  unfold Obligations.EncodeZeroGivesSignedZero
  intro S s
  have hbyte : mf8OfMag S zeroMag = S ++ 0x00#7 := rfl
  obtain ⟨hrow, hop⟩ := encodeRow_outcome .zero (E := 0) (F := 0) s rfl hbyte
  exact ⟨hrow, hop, by decide, by decide⟩

/-! ## The sign -/

@[simp] theorem f32ClassOf_f32Word (S : Sign) (E : BitVec 8) (F : BitVec 23) :
    f32ClassOf (f32Word S E F) = f32Class E F := by
  rw [f32ClassOf, f32Exp_f32Word, f32Man_f32Word]

theorem encodeWith_getLsbD_sign (np : BitVec 4) (w : F32) : (encodeWith np w).getLsbD 7 = w.getLsbD 31 := by
  rw [encodeWith, mf8OfMag_msb, f32Sign_getLsbD]

theorem mf8Mag_encodeWith_f32Word (np : BitVec 4) (S : Sign) (E : BitVec 8) (F : BitVec 23) :
    mf8Mag (encodeWith np (f32Word S E F)) = BitVec.ofNat 7 (encodeMag np E F) := by
  rw [encodeWith_f32Word, mf8Mag_mf8OfMag]

theorem decodeByte_getLsbD_sign (b : MF8) : (decodeByte b).getLsbD 31 = b.getLsbD 7 := by
  rw [decodeByte, f32OfPair, f32OfFields, ← f32Sign_getLsbD, f32Sign_f32Word, mf8Sign_getLsbD]

/-- Settles O32: the sign bits are copied, and class and code are functions of the other two fields. -/
theorem signIsCopied : Obligations.SignIsCopied := by
  unfold Obligations.SignIsCopied
  refine ⟨encodeWith_getLsbD_sign, ?cls, ?mag, decodeByte_getLsbD_sign, by decide, by decide, by decide, by decide⟩
  case cls =>
    intro S S' E F
    rw [f32ClassOf_f32Word, f32ClassOf_f32Word]
  case mag =>
    intro np S S' E F
    rw [mf8Mag_encodeWith_f32Word, mf8Mag_encodeWith_f32Word]

end Sys2Proof.Machine
end

section
/-! What the rows of `DECODE` answer (spec/41_decode.md R75 to R82): the output fields of a class, their place in
the word, and the statements on zero, denormal, infinite and normal operands and on the reassembled word. -/

namespace Sys2Proof.Machine

/-! ## A row and the operation on the row's operand -/

/-- A row that gives the operation's fields `p`, and `DECODE` on the row's operand, both drive the decoder to the
word `y` of those fields. The word is a variable because the rules write it out, each in its own form. -/
theorem decodeRow_outcome (c : MF8Class) {p : Nat × Nat} {g : Sign} {e : BitVec 3} {m : BitVec 4} {y : F32}
    (s : State) (hp : decodeFields e m = p) (hy : f32OfPair g p = y) :
    evalDecodeRow c p g e m s = .next (driveDecIn (mf8Word g e m) y s) ∧
    execDecode (mf8Word g e m) s = .next (driveDecIn (mf8Word g e m) y s) := by
  have hword : decodeByte (mf8Word g e m) = y := by
    rw [decodeByte_mf8Word, hp, hy]
  constructor
  · rw [evalDecodeRow_eq c p g e m s fun _ => hp.symm, hword]
  · rw [execDecode, hword]

/-! ## The fields in the word -/

/-- A field value of at most 255 is the exponent field that the word shows (R82). -/
theorem f32Exp_f32OfFields_toNat (S : Sign) {E : Nat} (F : Nat) (hE : E ≤ 255) :
    (f32Exp (f32OfFields S E F)).toNat = E := by
  rw [f32OfFields, f32Exp_f32Word, BitVec.toNat_ofNat, Nat.mod_eq_of_lt (by omega)]

/-- A field value below `2^23` is the mantissa field that the word shows (R82). -/
theorem f32Man_f32OfFields_toNat (S : Sign) (E : Nat) {F : Nat} (hF : F < 2 ^ 23) :
    (f32Man (f32OfFields S E F)).toNat = F := by
  rw [f32OfFields, f32Man_f32Word, BitVec.toNat_ofNat, Nat.mod_eq_of_lt hF]

/-- The value of a word whose exponent field value is that of a normalized operand (R52). -/
theorem val32_f32OfFields (S : Sign) {E F : Nat} (hlow : 1 ≤ E) (hhigh : E ≤ 254) (hF : F < 2 ^ 23) :
    val32 (f32OfFields S E F) =
      some (signFactor S * (2 : ℚ) ^ ((E : ℤ) - 127) * (1 + (F : ℚ) / 2 ^ 23)) :=
  val32_normal _ S E F (f32Sign_f32Word S _ _) (f32Exp_f32OfFields_toNat S F (by omega))
    (f32Man_f32OfFields_toNat S E hF) hlow hhigh

/-- Settles O31: the fields fit their widths, so the word's number is the sum of the placed fields. -/
theorem decoderFieldsFit : Obligations.DecoderFieldsFit := by
  unfold Obligations.DecoderFieldsFit
  intro b p
  obtain ⟨hE, hF⟩ := decodeFields_range (mf8Exp b) (mf8Man b)
  exact ⟨hE, hF, rfl, f32OfFields_toNat (mf8Sign b) hE hF⟩

/-! ## Zero and infinity -/

/-- Settles O26: the output fields of zero are 0 and 0. -/
theorem decodeZeroGivesSignedZero : Obligations.DecodeZeroGivesSignedZero := by
  unfold Obligations.DecodeZeroGivesSignedZero
  intro g s
  have hword : f32OfPair g zeroFields = g ++ 0x00#8 ++ 0#23 := rfl
  obtain ⟨hrow, hop⟩ := decodeRow_outcome .zero (e := 0) (m := 0) s rfl hword
  exact ⟨hrow, hop, by decide, by decide⟩

/-- Settles O28: the output fields of infinity are 255 and 0. -/
theorem decodeInfinity : Obligations.DecodeInfinity := by
  unfold Obligations.DecodeInfinity
  intro g s
  have hword : f32OfPair g infFields = g ++ 0xFF#8 ++ 0#23 := rfl
  obtain ⟨hrow, hop⟩ := decodeRow_outcome .inf (e := 7) (m := 0) s rfl hword
  exact ⟨hrow, hop, by decide, by decide⟩

/-! ## Normal operands -/

theorem decodeFields_of_normal {e : BitVec 3} (m : BitVec 4) (hlow : 1 ≤ e.toNat) (hhigh : e.toNat ≤ 6) :
    decodeFields e m = normalFields e m := by
  have hclass : mf8Class e m = .normal := by
    rw [mf8Class_eq, if_neg (by omega), if_neg (by omega)]
  rw [decodeFields, hclass]

/-- `E_out = e + 124` (R81): the two biases differ by 124, and the sum is no negative number. -/
theorem normalFields_eq (e : BitVec 3) (m : BitVec 4) :
    normalFields e m = (e.toNat + 124, m.toNat <<< 19) := by
  have hexp : (unbiasedMiniExp e + Config.f32Bias).toNat = e.toNat + 124 := by
    simp only [unbiasedMiniExp, Config.f32Bias, Config.mfBias]
    omega
  rw [normalFields, hexp, widen, Config.manShift]

/-- Settles O30: the fields of a normal operand are `e + 124` and `m << 19`, and the first fits. -/
theorem decodeNormalRebiases : Obligations.DecodeNormalRebiases := by
  unfold Obligations.DecodeNormalRebiases
  refine ⟨by decide, ?_⟩
  intro g e m s hlow hhigh y
  have hword : f32OfPair g (normalFields e m) = y := by
    rw [normalFields_eq]
    rfl
  have hexp : (f32Exp y).toNat = e.toNat + 124 := f32Exp_f32OfFields_toNat g _ (by omega)
  obtain ⟨hrow, hop⟩ := decodeRow_outcome .normal s (decodeFields_of_normal m hlow hhigh) hword
  exact ⟨hrow, hop, by omega, by omega, by omega⟩

/-! ## Denormal operands -/

theorem decodeFields_of_denormal {m : BitVec 4} (hm : m ≠ 0) : decodeFields 0 m = denormalFields m := by
  have hclass : mf8Class 0 m = .denormal := by
    rw [mf8Class, if_pos rfl, if_neg hm]
  rw [decodeFields, hclass]

theorem ne_zero_of_two_pow_le {m : BitVec 4} {p : Nat} (hle : 2 ^ p ≤ m.toNat) : m ≠ 0 := by
  rintro rfl
  exact (Nat.two_pow_pos p).not_ge hle

/-- Only one `p` has `2^p <= m < 2^(p+1)`, the highest set bit of `m` (R51). -/
theorem eq_hibit_of_bounds {m : BitVec 4} {p : Nat} (hle : 2 ^ p ≤ m.toNat) (hlt : m.toNat < 2 ^ (p + 1)) :
    p = hibit m := by
  obtain ⟨hle', hlt'⟩ := hibit_spec m (ne_zero_of_two_pow_le hle)
  rw [← Nat.log_eq_of_pow_le_of_lt_pow hle hlt, Nat.log_eq_of_pow_le_of_lt_pow hle' hlt']

theorem hibit_le (m : BitVec 4) : hibit m ≤ 3 := by
  unfold hibit
  split_ifs <;> decide

/-- `E_out = 121 + p` (R78). -/
theorem denormalFields_fst (m : BitVec 4) : (denormalFields m).1 = 121 + hibit m := by
  have := hibit_le m
  simp only [denormalFields, Config.f32Bias, Config.mfBias]
  omega

/-- Normalising loses nothing (R78): the implicit 1 stands for `2^p` and the left-aligned mantissa for the bits
below it, so the normalized form with exponent field `121 + p` has the value `n * 2^-6`. -/
theorem normalized_value {n p : Nat} (hp : p ≤ 23) (hn : 2 ^ p ≤ n) :
    (2 : ℚ) ^ (((121 + p : ℕ) : ℤ) - 127) * (1 + (((n - 2 ^ p) <<< (23 - p) : ℕ) : ℚ) / 2 ^ 23) =
      n * (2 : ℚ) ^ (-6 : ℤ) := by
  have hexp : (2 : ℚ) ^ (((121 + p : ℕ) : ℤ) - 127) = 2 ^ p * (2 : ℚ) ^ (-6 : ℤ) := by
    rw [← zpow_natCast, ← zpow_add₀ (by norm_num)]
    congr 1
    push_cast
    ring
  have hsplit : (2 : ℚ) ^ 23 = 2 ^ (23 - p) * 2 ^ p := by
    rw [← pow_add, Nat.sub_add_cancel hp]
  rw [hexp, hsplit, Nat.shiftLeft_eq]
  push_cast [Nat.cast_sub hn]
  field_simp
  ring

/-- The value of a normalised denormal is that of the operand (R53, R78). -/
theorem val32_denormalFields (g : Sign) {m : BitVec 4} (hm : m ≠ 0) :
    val32 (f32OfPair g (denormalFields m)) = some (signFactor g * m.toNat * (2 : ℚ) ^ (-6 : ℤ)) := by
  have hp := hibit_le m
  have hE := denormalFields_fst m
  obtain ⟨-, hF⟩ := decodeFields_range 0 m
  rw [decodeFields_of_denormal hm] at hF
  rw [f32OfPair, val32_f32OfFields g (by omega) (by omega) hF, hE, mul_assoc, mul_assoc]
  congr 2
  exact normalized_value (by omega) (hibit_spec m hm).1

/-- Settles O27: the statement's `p` is the model's `hibit m`, so its word is that of the denormal's fields. -/
theorem decodeDenormalNormalises : Obligations.DecodeDenormalNormalises := by
  unfold Obligations.DecodeDenormalNormalises
  refine ⟨?rows, by decide, by decide⟩
  case rows =>
    intro g m p s hle hlt
    obtain rfl : p = hibit m := eq_hibit_of_bounds hle hlt
    intro y
    have hm : m ≠ 0 := ne_zero_of_two_pow_le hle
    have hp := hibit_le m
    have hword : f32OfPair g (denormalFields m) = y := rfl
    have hE := denormalFields_fst m
    have hexp : (f32Exp y).toNat = (denormalFields m).1 := f32Exp_f32OfFields_toNat g _ (by omega)
    obtain ⟨hrow, hop⟩ := decodeRow_outcome .denormal s (decodeFields_of_denormal hm) hword
    exact ⟨hrow, hop, by omega, by omega, by omega, hword ▸ val32_denormalFields g hm⟩

end Sys2Proof.Machine
end

section
/-! Infinity is reserved (spec/42_numerics.md R89): the byte of infinity comes from infinity alone, and infinity
goes through both units with its sign. -/

namespace Sys2Proof.Machine

/-! ## Infinity among the operands -/

/-- The class infinity holds one operand of each sign (R44). -/
theorem eq_infWord_of_class {w : F32} (h : f32ClassOf w = .inf) : w = f32Word (f32Sign w) 255 0 := by
  obtain ⟨hE, hF⟩ := (f32Class_inf_iff _ _).1 h
  have hexp : f32Exp w = 255 := BitVec.eq_of_toNat_eq hE
  have hman : f32Man w = 0 := BitVec.eq_of_toNat_eq hF
  rw [← hexp, ← hman, f32Word_fields]

/-- No finite operand has the code of infinity (R65, R67), and the nonzero payload keeps NaN apart (R7). -/
theorem class_inf_of_encodeMag {np : BitVec 4} (hnp : np ≠ 0) {E : BitVec 8} {F : BitVec 23}
    (h : encodeMag np E F = 112) : f32Class E F = .inf := by
  by_contra hinf
  by_cases hnan : f32Class E F = .nan
  · have hcode : encodeMag np E F = 112 + np.toNat := by
      rw [encodeMag, hnan]
      rfl
    exact hnp (BitVec.eq_of_toNat_eq (Nat.add_left_cancel (hcode.symm.trans h)))
  · have hfinite : encodeMag np E F ≤ 111 := encodeMag_le_maxFinite np hinf hnan
    omega

/-! ## Infinity through the units -/

theorem encodeWith_infWord (np : BitVec 4) (S : Sign) :
    encodeWith np (f32Word S 255 0) = mf8Word S 7 0 :=
  (encodeWith_f32Word np S 255 0).trans (mf8Word_eq_mf8OfMag S 7 0).symm

theorem decodeByte_infByte (S : Sign) : decodeByte (mf8Word S 7 0) = f32Word S 255 0 :=
  decodeByte_mf8Word S 7 0

/-- `ENCODE` gives an infinity exactly for the infinity of the same sign (R89). -/
theorem encodeWith_eq_infByte_iff {np : BitVec 4} (hnp : np ≠ 0) (S : Sign) (w : F32) :
    encodeWith np w = mf8Word S 7 0 ↔ w = f32Word S 255 0 := by
  constructor
  · intro h
    have hnum : 128 * (f32Sign w).toNat + encodeMag np (f32Exp w) (f32Man w) = 128 * S.toNat + 112 := by
      rw [← encodeWith_toNat, h, mf8Word_toNat]
      rfl
    have hle := encodeMag_le np (f32Exp w) (f32Man w)
    have hcode : encodeMag np (f32Exp w) (f32Man w) = 112 := by omega
    have hsign : f32Sign w = S := sign_eq_of_toNat (by omega)
    rw [← hsign]
    exact eq_infWord_of_class (class_inf_of_encodeMag hnp hcode)
  · rintro rfl
    exact encodeWith_infWord np S

theorem roundTrip32_infWord (S : Sign) : roundTrip32 (f32Word S 255 0) = f32Word S 255 0 := by
  rw [roundTrip32, encodeWord, encodeWith_infWord, decodeByte_infByte]

theorem roundTrip8_infByte (S : Sign) : roundTrip8 (mf8Word S 7 0) = mf8Word S 7 0 := by
  rw [roundTrip8, decodeByte_infByte, encodeWord, encodeWith_infWord]

/-- Settles O39: the bytes and words written out are the infinities of sign 0 and of sign 1, and the payload of
`ENCODE` is not 0. -/
theorem infinityIsReserved : Obligations.InfinityIsReserved := by
  unfold Obligations.InfinityIsReserved
  have hnp : Config.nanPayload ≠ 0 := by decide
  exact ⟨encodeWith_eq_infByte_iff hnp 0, encodeWith_eq_infByte_iff hnp 1,
    decodeByte_infByte 0, decodeByte_infByte 1, roundTrip32_infWord 0, roundTrip32_infWord 1,
    roundTrip8_infByte 0, roundTrip8_infByte 1⟩

end Sys2Proof.Machine
end

section
/-! Nothing stops the machine (spec/60_exceptions.md R101): what an instruction answers, by the port its operand
belongs to, and the statement that every instruction and every step has a next state. -/

namespace Sys2Proof.Machine

/-- An instruction on a pattern for `enc_in` drives the encoder, which shows `ENCODE` of the pattern. The class of
the operand is the row's, or the row's code is not used (log entry 5). -/
theorem exec_of_onEncIn {i : Instr} {w : F32} (hop : encode i = .onEncIn w) (s : State) :
    exec i s = .next (driveEncIn w (encodeWord w) s) := by
  cases i <;> cases hop
  case encode => rfl
  all_goals exact evalEncodeRow_eq _ _ _ _ _ s fun hclass => by rw [encodeMag, hclass]

/-- An instruction on a pattern for `dec_in` drives the decoder, which shows `DECODE` of the pattern. -/
theorem exec_of_onDecIn {i : Instr} {b : MF8} (hop : encode i = .onDecIn b) (s : State) :
    exec i s = .next (driveDecIn b (decodeByte b) s) := by
  cases i <;> cases hop
  case decode => rfl
  all_goals exact evalDecodeRow_eq _ _ _ _ _ s fun hclass => by rw [decodeFields, hclass]

/-- Every operand belongs to one of the two ports, so every instruction completes. -/
theorem exec_next (i : Instr) (s : State) : ∃ t, exec i s = .next t := by
  cases hop : encode i with
  | onEncIn w => exact ⟨_, exec_of_onEncIn hop s⟩
  | onDecIn b => exact ⟨_, exec_of_onDecIn hop s⟩

theorem step_next (s : State) : ∃ t, step s = .next t := by
  rcases step_cases s with ⟨-, hidle⟩ | ⟨t, rest, -, ⟨p, -, hrun⟩ | ⟨c, -, hconn⟩⟩
  · exact ⟨s, hidle⟩
  · rw [hrun]
    exact exec_next (decode p) _
  · exact ⟨_, hconn⟩

/-- Settles O3: every instruction drives one of the two inputs, every step is idle, an instruction or a connection,
and the type of faults has no constructor. -/
theorem nothingRaisesAnException : Obligations.NothingRaisesAnException := by
  unfold Obligations.NothingRaisesAnException
  exact ⟨exec_next, step_next, nofun⟩

end Sys2Proof.Machine
end

section
/-! Operands and rows (spec/30_encoding.md R54, R56): decoding and encoding undo each other, and the masks of the
table select the class the decoder finds. -/

namespace Sys2Proof

open Machine

/-! ## The classes decided by whole fields -/

theorem f32Class_zero_iff_eq (E : BitVec 8) (F : BitVec 23) : f32Class E F = .zero ↔ E = 0 ∧ F = 0 := by
  rw [f32Class_zero_iff, ← BitVec.toNat_inj, ← BitVec.toNat_inj]; rfl

theorem f32Class_subnormal_iff_eq (E : BitVec 8) (F : BitVec 23) :
    f32Class E F = .subnormal ↔ E = 0 ∧ F ≠ 0 := by
  rw [f32Class_subnormal_iff, ne_eq F, ← BitVec.toNat_inj, ← BitVec.toNat_inj]; rfl

theorem f32Class_inf_iff_eq (E : BitVec 8) (F : BitVec 23) : f32Class E F = .inf ↔ E = 0xFF ∧ F = 0 := by
  rw [f32Class_inf_iff, ← BitVec.toNat_inj, ← BitVec.toNat_inj]; rfl

theorem f32Class_nan_iff_eq (E : BitVec 8) (F : BitVec 23) : f32Class E F = .nan ↔ E = 0xFF ∧ F ≠ 0 := by
  rw [f32Class_nan_iff, ne_eq F, ← BitVec.toNat_inj, ← BitVec.toNat_inj]; rfl

/-! ## Decode of encode -/

/-- A well-formed class row is the row its operand decodes to: its fields put the operand in the row's class. -/
theorem decode_encode {i : Instr} (hwf : i.wellFormed = true) (hrow : isClassRow i = true) :
    decode (encode i) = i := by
  have onWord : ∀ {S E F}, decode (.onEncIn (f32Word S E F)) = _ := @decodeF32_f32Word
  have onByte : ∀ {s e m}, decode (.onDecIn (mf8Word s e m)) = _ := @decodeMF8_mf8Word
  cases i with
  | encode w => cases hrow
  | decode b => cases hrow
  | encodeZero S => exact onWord
  | encodeInf S => exact onWord
  | encodeSubnormal S F =>
    rw [encode, onWord, (f32Class_subnormal_iff_eq 0 F).2 ⟨rfl, bne_iff_ne.1 hwf⟩]
  | encodeNan S F =>
    rw [encode, onWord, (f32Class_nan_iff_eq 0xFF F).2 ⟨rfl, bne_iff_ne.1 hwf⟩]
  | encodeOverflow S E F =>
    rw [encode, onWord, (f32Class_overflow_iff E F).2 (by simpa [Instr.wellFormed] using hwf)]
  | encodeInrange S E F =>
    rw [encode, onWord, (f32Class_inrange_iff E F).2 (by simpa [Instr.wellFormed] using hwf)]
  | encodeUnderflowDenormal S E F =>
    rw [encode, onWord, (f32Class_underflowDenormal_iff E F).2 (by simpa [Instr.wellFormed] using hwf)]
  | encodeUnderflowZero S E F =>
    rw [encode, onWord, (f32Class_underflowZero_iff E F).2 (by simpa [Instr.wellFormed] using hwf)]
  | decodeZero s => exact onByte
  | decodeInf s => exact onByte
  | decodeDenormal s m =>
    rw [encode, onByte, mf8Class, if_pos rfl, if_neg (bne_iff_ne.1 hwf)]
  | decodeNan s m =>
    have hclass : mf8Class 7 m = .nan := if_neg (bne_iff_ne.1 hwf)
    rw [encode, onByte, hclass]
  | decodeNormal s e m =>
    obtain ⟨hlow, hhigh⟩ : 1 ≤ e.toNat ∧ e.toNat ≤ 6 := by simpa [Instr.wellFormed] using hwf
    rw [encode, onByte, mf8Class_eq, if_neg (by omega), if_neg (by omega)]

/-! ## Encode of decode -/

theorem decodeF32_spec (S : Sign) (E : BitVec 8) (F : BitVec 23) :
    encode (decodeF32 (f32Word S E F)) = .onEncIn (f32Word S E F) ∧
    (decodeF32 (f32Word S E F)).wellFormed = true ∧ isClassRow (decodeF32 (f32Word S E F)) = true := by
  rw [decodeF32_f32Word]
  cases hc : f32Class E F with
  | zero =>
    obtain ⟨rfl, rfl⟩ := (f32Class_zero_iff_eq E F).1 hc
    exact ⟨rfl, rfl, rfl⟩
  | subnormal =>
    obtain ⟨rfl, hF⟩ := (f32Class_subnormal_iff_eq E F).1 hc
    exact ⟨rfl, bne_iff_ne.2 hF, rfl⟩
  | inf =>
    obtain ⟨rfl, rfl⟩ := (f32Class_inf_iff_eq E F).1 hc
    exact ⟨rfl, rfl, rfl⟩
  | nan =>
    obtain ⟨rfl, hF⟩ := (f32Class_nan_iff_eq E F).1 hc
    exact ⟨rfl, bne_iff_ne.2 hF, rfl⟩
  | overflow => exact ⟨rfl, by simpa [Instr.wellFormed] using (f32Class_overflow_iff E F).1 hc, rfl⟩
  | inrange => exact ⟨rfl, by simpa [Instr.wellFormed] using (f32Class_inrange_iff E F).1 hc, rfl⟩
  | underflowDenormal =>
    exact ⟨rfl, by simpa [Instr.wellFormed] using (f32Class_underflowDenormal_iff E F).1 hc, rfl⟩
  | underflowZero => exact ⟨rfl, by simpa [Instr.wellFormed] using (f32Class_underflowZero_iff E F).1 hc, rfl⟩

theorem decodeMF8_spec : ∀ b : MF8,
    encode (decodeMF8 b) = .onDecIn b ∧ (decodeMF8 b).wellFormed = true ∧ isClassRow (decodeMF8 b) = true := by
  decide

/-- Every operand decodes to a well-formed class row that stands for it (R54, R56). -/
theorem decode_spec (p : Operand) :
    encode (decode p) = p ∧ (decode p).wellFormed = true ∧ isClassRow (decode p) = true := by
  cases p with
  | onEncIn w =>
    rw [← f32Word_fields w]
    exact decodeF32_spec _ _ _
  | onDecIn b => exact decodeMF8_spec b

theorem encode_decode (p : Operand) : encode (decode p) = p := (decode_spec p).1

/-- Settles O12: another well-formed class row that stands for the operand is what the operand decodes to. -/
theorem everyOperandIsOneRow : Obligations.EveryOperandIsOneRow := by
  unfold Obligations.EveryOperandIsOneRow
  intro p
  obtain ⟨hop, hwf, hrow⟩ := decode_spec p
  refine ⟨hop, hwf, hrow, ?_⟩
  rintro i hi hr rfl
  exact (decode_encode hi hr).symm

theorem exec_decode_onEncIn (w : F32) (s : State) :
    exec (decode (.onEncIn w)) s = .next (driveEncIn w (encodeWord w) s) :=
  exec_of_onEncIn (encode_decode _) s

theorem exec_decode_onDecIn (b : MF8) (s : State) :
    exec (decode (.onDecIn b)) s = .next (driveDecIn b (decodeByte b) s) :=
  exec_of_onDecIn (encode_decode _) s

/-- Settles O11: a row is found again from its operand, and what an instruction does depends on its operand
alone. -/
theorem decodeOfEncodeIsTheInstruction : Obligations.DecodeOfEncodeIsTheInstruction := by
  unfold Obligations.DecodeOfEncodeIsTheInstruction
  refine ⟨fun _ => decode_encode, fun i s => ?_⟩
  cases hop : encode i with
  | onEncIn w => rw [exec_decode_onEncIn, exec_of_onEncIn hop]
  | onDecIn b => rw [exec_decode_onDecIn, exec_of_onDecIn hop]

/-- Settles O14: six written words and bytes, and a width that no port has. -/
theorem writtenWordsDecode : Obligations.WrittenWordsDecode := by
  unfold Obligations.WrittenWordsDecode
  decide

/-! ## The masks of the table -/

/-- A mask acts on the three fields of a word apart. -/
theorem and_eq_iff_fields (w m v : F32) :
    w &&& m = v ↔ f32Sign w &&& f32Sign m = f32Sign v ∧ f32Exp w &&& f32Exp m = f32Exp v ∧
      f32Man w &&& f32Man m = f32Man v := by
  constructor
  · rintro rfl
    simp [f32Sign, f32Exp, f32Man, BitVec.extractLsb'_and]
  · rintro ⟨hs, he, hf⟩
    rw [← f32Word_fields v, ← hs, ← he, ← hf, ← f32Word_fields (w &&& m)]
    simp [f32Sign, f32Exp, f32Man, BitVec.extractLsb'_and]

/-- A mask and a match that are 0 outside the exponent field compare exponent fields. -/
theorem and_eq_iff_exp (w : F32) {m v : F32} (hm : f32Sign m = 0 ∧ f32Man m = 0)
    (hv : f32Sign v = 0 ∧ f32Man v = 0) : w &&& m = v ↔ f32Exp w &&& f32Exp m = f32Exp v := by
  rw [and_eq_iff_fields, hm.1, hm.2, hv.1, hv.2]
  simp

/-- The classes whose mask pairs look at the exponent field alone (R56). -/
def isRangeClass (c : F32Class) : Bool :=
  c == .overflow || c == .inrange || c == .underflowDenormal || c == .underflowZero

/-- Masks and matches of the range rows are 0 outside the exponent field. -/
theorem f32Cover_in_exp : ∀ c, isRangeClass c = true → ((f32Cover c).all fun p =>
    (f32Sign p.1 == 0 && f32Man p.1 == 0) && (f32Sign p.2 == 0 && f32Man p.2 == 0)) = true := by
  intro c
  cases c <;> decide

/-- The covers of the range rows, over the 256 exponent fields. -/
theorem f32Cover_exp_iff : ∀ c, isRangeClass c = true → ∀ E : BitVec 8,
    ((f32Cover c).any fun p => E &&& f32Exp p.1 == f32Exp p.2) = true ↔ f32Class E 0 = c := by
  intro c
  cases c <;> decide

/-- A range class is decided by the exponent field, so the mantissa may be taken to be 0. -/
theorem f32Class_range_iff {c : F32Class} (hc : isRangeClass c = true) (E : BitVec 8) (F : BitVec 23) :
    f32Class E F = c ↔ f32Class E 0 = c := by
  cases c with
  | overflow => rw [f32Class_overflow_iff, f32Class_overflow_iff]
  | inrange => rw [f32Class_inrange_iff, f32Class_inrange_iff]
  | underflowDenormal => rw [f32Class_underflowDenormal_iff, f32Class_underflowDenormal_iff]
  | underflowZero => rw [f32Class_underflowZero_iff, f32Class_underflowZero_iff]
  | _ => cases hc

theorem f32RowMatches_iff_of_range {c : F32Class} (hc : isRangeClass c = true) (w : F32) :
    f32RowMatches c w = true ↔ f32ClassOf w = c := by
  have hextra : f32Extra c w = true := by
    cases c <;> simp_all [f32Extra, isRangeClass]
  have hfields := List.all_eq_true.1 (f32Cover_in_exp c hc)
  have hpair : ∀ p ∈ f32Cover c, (w &&& p.1 == p.2) = (f32Exp w &&& f32Exp p.1 == f32Exp p.2) := by
    intro p hp
    obtain ⟨hm, hv⟩ := by simpa using hfields p hp
    rw [Bool.eq_iff_iff, beq_iff_eq, beq_iff_eq, and_eq_iff_exp w hm hv]
  have hany : (f32Cover c).any (fun p => w &&& p.1 == p.2) =
      (f32Cover c).any fun p => f32Exp w &&& f32Exp p.1 == f32Exp p.2 := by
    rw [Bool.eq_iff_iff, List.any_eq_true, List.any_eq_true]
    exact exists_congr fun p => and_congr_right fun hp => by rw [hpair p hp]
  rw [f32RowMatches, hextra, Bool.and_true, hany, f32ClassOf, f32Class_range_iff hc]
  exact f32Cover_exp_iff c hc (f32Exp w)

/-- The masks of the four rows with a fixed exponent field, by the fields that they compare. -/
theorem and_wholeMask_iff (w : F32) {v : F32} (hs : f32Sign v = 0) (hf : f32Man v = 0) :
    w &&& 0x7FFFFFFF = v ↔ f32Exp w = f32Exp v ∧ f32Man w = 0 := by
  have ms : f32Sign 0x7FFFFFFF = 0 := by decide
  have me : f32Exp 0x7FFFFFFF = BitVec.allOnes 8 := by decide
  have mf : f32Man 0x7FFFFFFF = BitVec.allOnes 23 := by decide
  rw [and_eq_iff_fields, ms, me, mf, hs, hf, BitVec.and_allOnes, BitVec.and_allOnes]
  simp

theorem and_expMask_iff (w : F32) {v : F32} (hs : f32Sign v = 0) (hf : f32Man v = 0) :
    w &&& 0x7F800000 = v ↔ f32Exp w = f32Exp v := by
  have me : f32Exp 0x7F800000 = BitVec.allOnes 8 := by decide
  rw [and_eq_iff_exp w (by decide) ⟨hs, hf⟩, me, BitVec.and_allOnes]

/-- A row with one pair is that pair and its extra condition. -/
theorem f32RowMatches_iff_of_single {c : F32Class} {m v : F32} (h : f32Cover c = [(m, v)]) (w : F32) :
    f32RowMatches c w = true ↔ w &&& m = v ∧ f32Extra c w = true := by
  simp [f32RowMatches, h]

theorem f32RowMatches_iff_of_not_range {c : F32Class} (hc : isRangeClass c = false) (w : F32) :
    f32RowMatches c w = true ↔ f32ClassOf w = c := by
  have hzero : f32Exp 0x00000000 = 0 := by decide
  have hones : f32Exp 0x7F800000 = 0xFF := by decide
  rw [f32ClassOf]
  cases c with
  | zero =>
    rw [f32RowMatches_iff_of_single rfl, and_wholeMask_iff w (by decide) (by decide), hzero, f32Class_zero_iff_eq]
    exact and_iff_left rfl
  | subnormal =>
    rw [f32RowMatches_iff_of_single rfl, and_expMask_iff w (by decide) (by decide), hzero,
      f32Class_subnormal_iff_eq]
    exact and_congr_right' bne_iff_ne
  | inf =>
    rw [f32RowMatches_iff_of_single rfl, and_wholeMask_iff w (by decide) (by decide), hones, f32Class_inf_iff_eq]
    exact and_iff_left rfl
  | nan =>
    rw [f32RowMatches_iff_of_single rfl, and_expMask_iff w (by decide) (by decide), hones, f32Class_nan_iff_eq]
    exact and_congr_right' bne_iff_ne
  | _ => cases hc

/-- Two pairs that ask for different bits under both masks have no operand in common. -/
theorem masks_disjoint {n : Nat} {p q : BitVec n × BitVec n} (h : p.2 &&& q.1 ≠ q.2 &&& p.1) (w : BitVec n) :
    ¬ (w &&& p.1 = p.2 ∧ w &&& q.1 = q.2) := by
  rintro ⟨hp, hq⟩
  apply h
  rw [← hp, ← hq, BitVec.and_assoc, BitVec.and_assoc, BitVec.and_comm p.1]

theorem f32Cover_conflict : ∀ c, (f32Cover c).Pairwise fun p q => p.2 &&& q.1 ≠ q.2 &&& p.1 := by
  intro c
  cases c <;> decide

theorem mf8Cover_conflict : ∀ c, (mf8Cover c).Pairwise fun p q => p.2 &&& q.1 ≠ q.2 &&& p.1 := by
  intro c
  cases c <;> decide

theorem mf8RowMatches_iff : ∀ (c : MF8Class) (b : MF8), mf8RowMatches c b = true ↔ mf8ClassOf b = c := by
  intro c
  cases c <;> decide

/-- Settles O13: the pairs of a range row look at the exponent field alone, those of the other rows at whole
fields; two pairs of one row conflict on a bit that both masks keep. -/
theorem tableMasksSelectTheRow : Obligations.TableMasksSelectTheRow := by
  unfold Obligations.TableMasksSelectTheRow
  refine ⟨fun c w => ?_, mf8RowMatches_iff, fun c => (f32Cover_conflict c).imp masks_disjoint,
    fun c => (mf8Cover_conflict c).imp masks_disjoint⟩
  cases hc : isRangeClass c with
  | true => exact f32RowMatches_iff_of_range hc w
  | false => exact f32RowMatches_iff_of_not_range hc w

end Sys2Proof
end

section
/-! The machine as a whole: what driving an input does under each connection, what a step and a run of steps do
(spec/10_state.md R26; spec/70_reset_and_hazards.md R117, R119), and the statements on the ports, on the two
units beside each other, and on stimulus programs (spec/30_encoding.md R57, R58). -/

namespace Sys2Proof.Machine

/-! ## Driving an input, by the connection there is -/

theorem driveEncIn_of_apart {s : State} (hw : s.wiring = .apart) (w : F32) (y : MF8) :
    driveEncIn w y s = { s with encIn := w, encOut := y } := by
  cases s; cases hw; rfl

theorem driveEncIn_of_encToDec {s : State} (hw : s.wiring = .encToDec) (w : F32) (y : MF8) :
    driveEncIn w y s = { s with encIn := w, encOut := y, decIn := y, decOut := decodeByte y } := by
  cases s; cases hw; rfl

theorem driveEncIn_of_decToEnc {s : State} (hw : s.wiring = .decToEnc) (w : F32) (y : MF8) :
    driveEncIn w y s = { s with encIn := w, encOut := y, wiring := .apart } := by
  cases s; cases hw; rfl

theorem driveDecIn_of_apart {s : State} (hw : s.wiring = .apart) (b : MF8) (y : F32) :
    driveDecIn b y s = { s with decIn := b, decOut := y } := by
  cases s; cases hw; rfl

theorem driveDecIn_of_encToDec {s : State} (hw : s.wiring = .encToDec) (b : MF8) (y : F32) :
    driveDecIn b y s = { s with decIn := b, decOut := y, wiring := .apart } := by
  cases s; cases hw; rfl

theorem driveDecIn_of_decToEnc {s : State} (hw : s.wiring = .decToEnc) (b : MF8) (y : F32) :
    driveDecIn b y s = { s with decIn := b, decOut := y, encIn := y, encOut := encodeWord y } := by
  cases s; cases hw; rfl

/-- Settles O55: the three connections are the cases of the statement's matches. -/
theorem drivingAndConnecting : Obligations.DrivingAndConnecting := by
  unfold Obligations.DrivingAndConnecting
  refine ⟨fun w y s => ?enc, fun b y s => ?dec, fun s => ⟨rfl, rfl, rfl⟩⟩
  case enc =>
    cases hw : s.wiring with
    | apart => simp only [driveEncIn_of_apart hw, hw]
    | encToDec => simp only [driveEncIn_of_encToDec hw, hw]
    | decToEnc => simp only [driveEncIn_of_decToEnc hw]
  case dec =>
    cases hw : s.wiring with
    | apart => simp only [driveDecIn_of_apart hw, hw]
    | encToDec => simp only [driveDecIn_of_encToDec hw]
    | decToEnc => simp only [driveDecIn_of_decToEnc hw, hw]

/-! ## Settled ports -/

/-- Settles O1: on the zero patterns both functions give the zero patterns. -/
theorem resetPortsSettled : Obligations.ResetPortsSettled := by
  unfold Obligations.ResetPortsSettled
  exact ⟨by decide, rfl, rfl⟩

/-- A driven encoder shows its function; the decoder is left settled, or settles on what the wire carries. -/
theorem driveEncIn_keeps_settled {s : State} (h : PortsSettled s) (w : F32) :
    PortsSettled (driveEncIn w (encodeWord w) s) := by
  obtain ⟨-, hdec, -, -⟩ := h
  rcases driveEncIn_cases w (encodeWord w) s with ⟨hw, e⟩ | ⟨hw, e⟩ | ⟨hw, e⟩ <;>
    simp [PortsSettled, e, hw, hdec]

/-- A driven decoder shows its function; the encoder is left settled, or settles on what the wire carries. -/
theorem driveDecIn_keeps_settled {s : State} (h : PortsSettled s) (b : MF8) :
    PortsSettled (driveDecIn b (decodeByte b) s) := by
  obtain ⟨henc, -, -, -⟩ := h
  rcases driveDecIn_cases b (decodeByte b) s with ⟨hw, e⟩ | ⟨hw, e⟩ | ⟨hw, e⟩ <;>
    simp [PortsSettled, e, hw, henc]

/-- A new wire settles the unit at its end on the value of the output at its other end. -/
theorem connectUnits_keeps_settled {s : State} (h : PortsSettled s) (c : Wiring) :
    PortsSettled (connectUnits c s) := by
  obtain ⟨henc, hdec, -, -⟩ := h
  rcases connectUnits_cases c s with ⟨-, e⟩ | ⟨-, e⟩ | ⟨-, e⟩ <;> simp [PortsSettled, e, henc, hdec]

theorem exec_keeps_settled {i : Instr} {s t : State} (h : PortsSettled s) (hrun : exec i s = .next t) :
    PortsSettled t := by
  cases hop : encode i with
  | onEncIn w =>
    rw [exec_of_onEncIn hop] at hrun
    cases hrun
    exact driveEncIn_keeps_settled h w
  | onDecIn b =>
    rw [exec_of_onDecIn hop] at hrun
    cases hrun
    exact driveDecIn_keeps_settled h b

/-- The list of stimuli is no port, so taking one keeps the ports settled; the action that follows does too. -/
theorem step_keeps_settled {s t : State} (h : PortsSettled s) (hstep : step s = .next t) : PortsSettled t := by
  rcases step_cases s with ⟨-, hidle⟩ | ⟨_, rest, -, ⟨p, -, hrun⟩ | ⟨c, -, hconn⟩⟩
  · rw [hidle] at hstep
    cases hstep
    exact h
  · exact exec_keeps_settled (s := { s with stim := rest }) h (hrun.symm.trans hstep)
  · rw [hconn] at hstep
    cases hstep
    exact connectUnits_keeps_settled (s := { s with stim := rest }) h c

/-- Settles O2: a step is idle, drives one input with its unit settled, or makes a connection. -/
theorem stepKeepsPortsSettled : Obligations.StepKeepsPortsSettled := by
  unfold Obligations.StepKeepsPortsSettled
  intro s t h hstep
  exact step_keeps_settled h hstep

/-! ## A step, by the next stimulus -/

theorem step_of_nil {s : State} (h : s.stim = []) : step s = .next s := by
  rw [step, nextAction, h]

theorem nextAction_of_cons {s : State} {t : Stimulus} {ts : List Stimulus} (h : s.stim = t :: ts) :
    nextAction s = some (stimulusAction t s, { s with stim := ts }) := by
  rw [nextAction, h]

theorem step_of_encode {s : State} {src : Src32} {ts : List Stimulus} (h : s.stim = .encode src :: ts) :
    step s = exec (decode (.onEncIn (src32Value src s))) { s with stim := ts } := by
  rw [step, nextAction_of_cons h, stimulusAction]

theorem step_of_decode {s : State} {src : Src8} {ts : List Stimulus} (h : s.stim = .decode src :: ts) :
    step s = exec (decode (.onDecIn (src8Value src s))) { s with stim := ts } := by
  rw [step, nextAction_of_cons h, stimulusAction]

theorem step_of_connect {s : State} {c : Wiring} {ts : List Stimulus} (h : s.stim = .connect c :: ts) :
    step s = .next (connectUnits c { s with stim := ts }) := by
  rw [step, nextAction_of_cons h, stimulusAction]

/-- Settles O4: the cases of the next stimulus; a word of 32 or 8 bits is pushed as an operand of its port. -/
theorem stepRunsTheDecodedOperand : Obligations.StepRunsTheDecodedOperand := by
  unfold Obligations.StepRunsTheDecodedOperand
  refine ⟨fun _ => step_of_nil, fun _ _ _ => step_of_encode, fun _ _ _ => step_of_decode,
    fun _ _ _ => step_of_connect, fun s w => ⟨?word, ?byte⟩⟩
  case word => exact step_pushOperand (.onEncIn (BitVec.ofNat 32 w)) s
  case byte => exact step_pushOperand (.onDecIn (BitVec.ofNat 8 w)) s

/-! ## Rows, operations and frames -/

/-- Settles O5: a row drives its operand's port with its unit's function, and the connection decides the rest. -/
theorem everyRowAgreesWithItsOperation : Obligations.EveryRowAgreesWithItsOperation := by
  unfold Obligations.EveryRowAgreesWithItsOperation
  intro i s
  constructor
  · intro w hop
    rw [exec_of_onEncIn hop]
    exact ⟨fun hw => congrArg _ (driveEncIn_of_apart hw _ _), fun hw => congrArg _ (driveEncIn_of_encToDec hw _ _),
      fun hw => congrArg _ (driveEncIn_of_decToEnc hw _ _)⟩
  · intro b hop
    rw [exec_of_onDecIn hop]
    exact ⟨fun hw => congrArg _ (driveDecIn_of_apart hw _ _), fun hw => congrArg _ (driveDecIn_of_encToDec hw _ _),
      fun hw => congrArg _ (driveDecIn_of_decToEnc hw _ _)⟩

/-- What driving `enc_in` leaves of the decoder's ports and of the connection (R3, R119). -/
theorem driveEncIn_frame (w : F32) (y : MF8) (s : State) :
    (s.wiring ≠ .encToDec → SameDec s (driveEncIn w y s)) ∧
    (s.wiring = .encToDec → (driveEncIn w y s).decIn = y ∧ (driveEncIn w y s).decOut = decodeByte y) ∧
    (driveEncIn w y s).wiring = if s.wiring = .decToEnc then .apart else s.wiring := by
  rcases driveEncIn_cases w y s with ⟨hw, e⟩ | ⟨hw, e⟩ | ⟨hw, e⟩ <;> simp [SameDec, e, hw]

/-- What driving `dec_in` leaves of the encoder's ports and of the connection (R3, R119). -/
theorem driveDecIn_frame (b : MF8) (y : F32) (s : State) :
    (s.wiring ≠ .decToEnc → SameEnc s (driveDecIn b y s)) ∧
    (s.wiring = .decToEnc → (driveDecIn b y s).encIn = y ∧ (driveDecIn b y s).encOut = encodeWord y) ∧
    (driveDecIn b y s).wiring = if s.wiring = .encToDec then .apart else s.wiring := by
  rcases driveDecIn_cases b y s with ⟨hw, e⟩ | ⟨hw, e⟩ | ⟨hw, e⟩ <;> simp [SameEnc, e, hw]

/-- An encoder row that completes has driven `enc_in` with its operand. -/
theorem next_of_onEnc {i : Instr} {w : F32} {s t : State} (hop : encode i = .onEncIn w)
    (hrun : exec i s = .next t) : t = driveEncIn w (encodeWord w) s :=
  Host.Outcome.next.inj (hrun.symm.trans (exec_of_onEncIn hop s))

/-- A decoder row that completes has driven `dec_in` with its operand. -/
theorem next_of_onDec {i : Instr} {b : MF8} {s t : State} (hop : encode i = .onDecIn b)
    (hrun : exec i s = .next t) : t = driveDecIn b (decodeByte b) s :=
  Host.Outcome.next.inj (hrun.symm.trans (exec_of_onDecIn hop s))

/-- Settles O7: the frames of driving the two inputs. -/
theorem unitFrames : Obligations.UnitFrames := by
  unfold Obligations.UnitFrames
  constructor
  · rintro i s t ⟨w, hop⟩ hrun
    obtain rfl := next_of_onEnc hop hrun
    rw [driveEncIn_encOut]
    exact ⟨driveEncIn_stim _ _ _, driveEncIn_frame _ _ _⟩
  · rintro i s t ⟨b, hop⟩ hrun
    obtain rfl := next_of_onDec hop hrun
    rw [driveDecIn_decOut]
    exact ⟨driveDecIn_stim _ _ _, driveDecIn_frame _ _ _⟩

/-- Both inputs driven are both units settled and no wire between them, whichever was driven first. -/
theorem driveDecIn_driveEncIn_comm (w : F32) (x : MF8) (b : MF8) (y : F32) (s : State) :
    driveDecIn b y (driveEncIn w x s) = driveEncIn w x (driveDecIn b y s) := by
  obtain ⟨_, _, _, _, wiring, _⟩ := s
  cases wiring <;> rfl

/-- Settles O8: a row's own port values are its operand and its unit's function of that. -/
theorem unitsAreIndependent : Obligations.UnitsAreIndependent := by
  unfold Obligations.UnitsAreIndependent
  refine ⟨?comm, ?enc, ?dec⟩
  case comm =>
    rintro i j s a b c d ⟨w, hi⟩ ⟨v, hj⟩ ha hb hc hd
    obtain rfl := next_of_onEnc hi ha
    obtain rfl := next_of_onDec hj hb
    obtain rfl := next_of_onDec hj hc
    obtain rfl := next_of_onEnc hi hd
    exact driveDecIn_driveEncIn_comm _ _ _ _ _
  case enc =>
    rintro i s s' t t' ⟨w, hop⟩ h h'
    obtain rfl := next_of_onEnc hop h
    obtain rfl := next_of_onEnc hop h'
    simp [SameEnc]
  case dec =>
    rintro i s s' t t' ⟨b, hop⟩ h h'
    obtain rfl := next_of_onDec hop h
    obtain rfl := next_of_onDec hop h'
    simp [SameDec]

/-! ## Runs -/

theorem run_succ_of_step {s t : State} (h : step s = .next t) (n : Nat) :
    Host.Core.run Sys2Proof.core (n + 1) s = Host.Core.run Sys2Proof.core n t := by
  have hcore : Sys2Proof.core.step s = .next t := h
  simp only [Host.Core.run, hcore]

/-- A step takes the first stimulus, if there is one. -/
theorem step_stim {s t : State} (h : step s = .next t) : t.stim = s.stim.tail := by
  rcases step_cases s with ⟨hnil, hidle⟩ | ⟨_, rest, hcons, ⟨p, -, hrun⟩ | ⟨c, -, hconn⟩⟩
  · rw [hidle] at h
    cases h
    rw [hnil, List.tail_nil]
  · rw [hcons, List.tail_cons]
    rw [hrun] at h
    cases hop : encode (decode p) with
    | onEncIn w => rw [next_of_onEnc hop h, driveEncIn_stim]
    | onDecIn b => rw [next_of_onDec hop h, driveDecIn_stim]
  · rw [hcons, List.tail_cons]
    rw [hconn] at h
    cases h
    rw [connectUnits_stim]

/-- As many steps as there are stimuli use them up and keep settled ports settled. -/
theorem run_uses_up_stimuli (n : Nat) : ∀ s : State, s.stim.length = n →
    ∃ t : State, Host.Core.run Sys2Proof.core n s = .next t ∧ t.stim = [] ∧
      (PortsSettled s → PortsSettled t) := by
  induction n with
  | zero => exact fun s hlen => ⟨s, rfl, List.length_eq_zero_iff.1 hlen, id⟩
  | succ n ih =>
    intro s hlen
    obtain ⟨s', hstep⟩ := step_next s
    have hlen' : s'.stim.length = n := by
      rw [step_stim hstep, List.length_tail, hlen, Nat.add_sub_cancel]
    obtain ⟨t, hrun, hnil, hkeep⟩ := ih s' hlen'
    exact ⟨t, (run_succ_of_step hstep n).trans hrun, hnil, fun h => hkeep (step_keeps_settled h hstep)⟩

theorem run_of_nil (n : Nat) {s : State} (h : s.stim = []) : Host.Core.run Sys2Proof.core n s = .next s := by
  induction n with
  | zero => rfl
  | succ n ih => exact (run_succ_of_step (step_of_nil h) n).trans ih

/-- Settles O6: each step takes one stimulus, and an idle step changes nothing. -/
theorem everyStimulusListCompletes : Obligations.EveryStimulusListCompletes := by
  unfold Obligations.EveryStimulusListCompletes
  exact ⟨fun s => run_uses_up_stimuli _ s rfl, fun n _ => run_of_nil n⟩

/-! ## Programs: a pseudo-operation written out -/

/-- A step that drives `enc_in` (R57): its source is read before the unit settles. -/
theorem step_drives_encIn {s : State} {src : Src32} {ts : List Stimulus} (h : s.stim = .encode src :: ts) :
    step s = .next (driveEncIn (src32Value src s) (encodeWord (src32Value src s)) { s with stim := ts }) := by
  rw [step_of_encode h, exec_decode_onEncIn]

/-- A step that drives `dec_in` (R57). -/
theorem step_drives_decIn {s : State} {src : Src8} {ts : List Stimulus} (h : s.stim = .decode src :: ts) :
    step s = .next (driveDecIn (src8Value src s) (decodeByte (src8Value src s)) { s with stim := ts }) := by
  rw [step_of_decode h, exec_decode_onDecIn]

/-- With both inputs driven no wire is left, and no port keeps its old value. -/
theorem driveDecIn_after_driveEncIn (w : F32) (x : MF8) (b : MF8) (y : F32) (s : State) (ts : List Stimulus) :
    driveDecIn b y { driveEncIn w x s with stim := ts } =
      { encIn := w, encOut := x, decIn := b, decOut := y, wiring := .apart, stim := ts } := by
  obtain ⟨_, _, _, _, wiring, _⟩ := s
  cases wiring <;> rfl

theorem driveEncIn_after_driveDecIn (w : F32) (x : MF8) (b : MF8) (y : F32) (s : State) (ts : List Stimulus) :
    driveEncIn w x { driveDecIn b y s with stim := ts } =
      { encIn := w, encOut := x, decIn := b, decOut := y, wiring := .apart, stim := ts } := by
  obtain ⟨_, _, _, _, wiring, _⟩ := s
  cases wiring <;> rfl

theorem run_one_of_step {s t : State} (h : step s = .next t) : Host.Core.run Sys2Proof.core 1 s = .next t :=
  run_succ_of_step h 0

theorem run_two_of_steps {s t u : State} (h : step s = .next t) (h' : step t = .next u) :
    Host.Core.run Sys2Proof.core 2 s = .next u :=
  (run_succ_of_step h 1).trans (run_one_of_step h')

/-- `RT32` as two evaluations (R58). -/
theorem run_encode_decode (s : State) (w : F32) (ts : List Stimulus) :
    Host.Core.run Sys2Proof.core 2 { s with stim := .encode (.lit w) :: .decode .encOut :: ts } =
      .next { encIn := w, encOut := encodeWord w, decIn := encodeWord w,
              decOut := decodeByte (encodeWord w), wiring := .apart, stim := ts } := by
  refine run_two_of_steps (step_drives_encIn rfl) ?_
  rw [step_drives_decIn (driveEncIn_stim _ _ _), driveDecIn_after_driveEncIn, src8Value, driveEncIn_encOut]
  rfl

/-- `RT8` as two evaluations (R58). -/
theorem run_decode_encode (s : State) (b : MF8) (ts : List Stimulus) :
    Host.Core.run Sys2Proof.core 2 { s with stim := .decode (.lit b) :: .encode .decOut :: ts } =
      .next { encIn := decodeByte b, encOut := encodeWord (decodeByte b), decIn := b,
              decOut := decodeByte b, wiring := .apart, stim := ts } := by
  refine run_two_of_steps (step_drives_decIn rfl) ?_
  rw [step_drives_encIn (driveDecIn_stim _ _ _), driveEncIn_after_driveDecIn, src32Value, driveDecIn_decOut]
  rfl

/-- Settles O51: the second step reads what the first one left on the output. -/
theorem chainedUnitsCompose : Obligations.ChainedUnitsCompose := by
  unfold Obligations.ChainedUnitsCompose
  exact ⟨run_encode_decode, run_decode_encode⟩

/-! ## Programs: a pseudo-operation by a wire -/

/-- A pattern driven on `enc_in` passes the wire to `dec_in` in the same step. -/
theorem step_wired_encode {s : State} (hw : s.wiring = .encToDec) (w : F32) (ts : List Stimulus) :
    step { s with stim := .encode (.lit w) :: ts } =
      .next { encIn := w, encOut := encodeWord w, decIn := encodeWord w, decOut := roundTrip32 w,
              wiring := .encToDec, stim := ts } := by
  obtain ⟨_, _, _, _, wiring, _⟩ := s
  cases hw
  rw [step_drives_encIn rfl, driveEncIn_of_encToDec rfl]
  rfl

/-- A pattern driven on `dec_in` passes the wire to `enc_in` in the same step. -/
theorem step_wired_decode {s : State} (hw : s.wiring = .decToEnc) (b : MF8) (ts : List Stimulus) :
    step { s with stim := .decode (.lit b) :: ts } =
      .next { encIn := decodeByte b, encOut := roundTrip8 b, decIn := b, decOut := decodeByte b,
              wiring := .decToEnc, stim := ts } := by
  obtain ⟨_, _, _, _, wiring, _⟩ := s
  cases hw
  rw [step_drives_decIn rfl, driveDecIn_of_decToEnc rfl]
  rfl

/-- While `enc_out` is wired to `dec_in`, the last of any patterns on `enc_in` decides all four ports (R119). -/
theorem run_wired_encodes (w : F32) (ts : List Stimulus) (ws : List F32) : ∀ s : State, s.wiring = .encToDec →
    Host.Core.run Sys2Proof.core (ws.length + 1)
        { s with stim := (ws.map fun v => .encode (.lit v)) ++ .encode (.lit w) :: ts } =
      .next { encIn := w, encOut := encodeWord w, decIn := encodeWord w, decOut := roundTrip32 w,
              wiring := .encToDec, stim := ts } := by
  induction ws with
  | nil => exact fun s hw => run_one_of_step (step_wired_encode hw w ts)
  | cons v vs ih =>
    intro s hw
    exact (run_succ_of_step (step_wired_encode hw v _) (vs.length + 1)).trans (ih ⟨_, _, _, _, .encToDec, []⟩ rfl)

/-- While `dec_out` is wired to `enc_in`, the last of any patterns on `dec_in` decides all four ports (R119). -/
theorem run_wired_decodes (b : MF8) (ts : List Stimulus) (bs : List MF8) : ∀ s : State, s.wiring = .decToEnc →
    Host.Core.run Sys2Proof.core (bs.length + 1)
        { s with stim := (bs.map fun v => .decode (.lit v)) ++ .decode (.lit b) :: ts } =
      .next { encIn := decodeByte b, encOut := roundTrip8 b, decIn := b, decOut := decodeByte b,
              wiring := .decToEnc, stim := ts } := by
  induction bs with
  | nil => exact fun s hw => run_one_of_step (step_wired_decode hw b ts)
  | cons v vs ih =>
    intro s hw
    exact (run_succ_of_step (step_wired_decode hw v _) (vs.length + 1)).trans (ih ⟨_, _, _, _, .decToEnc, []⟩ rfl)

/-- The wire is made first, from any state. -/
theorem run_connect_encodes (s : State) (ws : List F32) (w : F32) (ts : List Stimulus) :
    Host.Core.run Sys2Proof.core (ws.length + 2)
        { s with stim := .connect .encToDec :: ((ws.map fun v => .encode (.lit v)) ++ .encode (.lit w) :: ts) } =
      .next { encIn := w, encOut := encodeWord w, decIn := encodeWord w, decOut := roundTrip32 w,
              wiring := .encToDec, stim := ts } := by
  rw [run_succ_of_step (step_of_connect rfl)]
  exact run_wired_encodes w ts ws (connectUnits .encToDec s) (connectUnits_wiring _ _)

theorem run_connect_decodes (s : State) (bs : List MF8) (b : MF8) (ts : List Stimulus) :
    Host.Core.run Sys2Proof.core (bs.length + 2)
        { s with stim := .connect .decToEnc :: ((bs.map fun v => .decode (.lit v)) ++ .decode (.lit b) :: ts) } =
      .next { encIn := decodeByte b, encOut := roundTrip8 b, decIn := b, decOut := decodeByte b,
              wiring := .decToEnc, stim := ts } := by
  rw [run_succ_of_step (step_of_connect rfl)]
  exact run_wired_decodes b ts bs (connectUnits .decToEnc s) (connectUnits_wiring _ _)

/-- Settles O56: after the connection the runs of driven patterns; in a settled state the equations of the wire
and of the two units, put together. -/
theorem wiredUnitsFollowTheInput : Obligations.WiredUnitsFollowTheInput := by
  unfold Obligations.WiredUnitsFollowTheInput
  refine ⟨fun s ws w => ?enc, fun s bs b => ?dec, ?settled⟩
  case enc =>
    rw [List.map_append]
    exact run_connect_encodes s ws w []
  case dec =>
    rw [List.map_append]
    exact run_connect_decodes s bs b []
  case settled =>
    rintro s ⟨henc, hdec, htoDec, htoEnc⟩
    constructor
    · intro hw
      rw [hdec, htoDec hw, henc, roundTrip32]
    · intro hw
      rw [henc, htoEnc hw, hdec, roundTrip8]

/-- One evaluation written as a line: one step. -/
theorem run_encode (s : State) (w : F32) (ts : List Stimulus) :
    Host.Core.run Sys2Proof.core 1 { s with stim := .encode (.lit w) :: ts } =
      .next (driveEncIn w (encodeWord w) { s with stim := ts }) :=
  run_one_of_step (step_drives_encIn (s := { s with stim := .encode (.lit w) :: ts }) rfl)

theorem run_decode (s : State) (b : MF8) (ts : List Stimulus) :
    Host.Core.run Sys2Proof.core 1 { s with stim := .decode (.lit b) :: ts } =
      .next (driveDecIn b (decodeByte b) { s with stim := ts }) :=
  run_one_of_step (step_drives_decIn (s := { s with stim := .decode (.lit b) :: ts }) rfl)

/-- Settles O52: by the four kinds of line and the two ways to write the pseudo-operations. -/
theorem programLinesRunOnTheMachine : Obligations.ProgramLinesRunOnTheMachine := by
  unfold Obligations.ProgramLinesRunOnTheMachine
  intro l c us ts s h
  cases l with
  | encode n src =>
    obtain ⟨w, hw, rfl⟩ := Option.map_eq_some_iff.1 ((or_self_iff).1 h)
    exact ⟨_, run_encode s w ts, driveEncIn_stim _ _ _, by simp [runLine, bindObserved, hw]⟩
  | decode n src =>
    obtain ⟨b, hb, rfl⟩ := Option.map_eq_some_iff.1 ((or_self_iff).1 h)
    exact ⟨_, run_decode s b ts, driveDecIn_stim _ _ _, by simp [runLine, bindObserved, hb]⟩
  | rt32 n src =>
    rcases h with h | h
    · obtain ⟨w, hw, rfl⟩ := Option.map_eq_some_iff.1 h
      exact ⟨_, run_encode_decode s w ts, rfl, by simp [runLine, bindObserved, hw, roundTrip32]⟩
    · obtain ⟨w, hw, rfl⟩ := Option.map_eq_some_iff.1 h
      exact ⟨_, run_connect_encodes s [] w ts, rfl, by simp [runLine, bindObserved, hw]⟩
  | rt8 n src =>
    rcases h with h | h
    · obtain ⟨b, hb, rfl⟩ := Option.map_eq_some_iff.1 h
      exact ⟨_, run_decode_encode s b ts, rfl, by simp [runLine, bindObserved, hb, roundTrip8]⟩
    · obtain ⟨b, hb, rfl⟩ := Option.map_eq_some_iff.1 h
      exact ⟨_, run_connect_decodes s [] b ts, rfl, by simp [runLine, bindObserved, hb]⟩

end Sys2Proof.Machine
end

section
/-! The rows of `ENCODE` that have no statement above (spec/40_encode.md R62 to R70): their magnitude codes, and the
statements on subnormal, NaN, overflow and underflow operands, on rounding into the next exponent, and on the
ranges of the encoder's arithmetic (R71). -/

namespace Sys2Proof.Machine

/-! ## Magnitude codes, by the class -/

section
variable (np : BitVec 4) {E : BitVec 8} {F : BitVec 23}

theorem encodeMag_of_zero (h : f32Class E F = .zero) : encodeMag np E F = 0 := by
  rw [encodeMag, h, zeroMag]

theorem encodeMag_of_subnormal (h : f32Class E F = .subnormal) : encodeMag np E F = 0 := by
  rw [encodeMag, h, subnormalMag]

theorem encodeMag_of_inf (h : f32Class E F = .inf) : encodeMag np E F = 0x70 := by
  rw [encodeMag, h, infMag, Config.mfInfinity]

theorem encodeMag_of_nan (h : f32Class E F = .nan) : encodeMag np E F = 0x70 + np.toNat := by
  rw [encodeMag, h, nanMag, Config.mfInfinity]

theorem encodeMag_of_overflow (h : f32Class E F = .overflow) : encodeMag np E F = 0x6F := by
  rw [encodeMag, h, overflowMag, Config.mfMaxFinite]

theorem encodeMag_of_underflowDenormal (h : f32Class E F = .underflowDenormal) :
    encodeMag np E F = underflowDenormalMag E F := by
  rw [encodeMag, h]

theorem encodeMag_of_underflowZero (h : f32Class E F = .underflowZero) : encodeMag np E F = 0 := by
  rw [encodeMag, h, underflowZeroMag]

end

/-! ## Constant rows -/

/-- Settles O16: a subnormal has the code 0. -/
theorem encodeSubnormalFlushes : Obligations.EncodeSubnormalFlushes := by
  unfold Obligations.EncodeSubnormalFlushes
  intro S F s hF
  have hclass : f32Class 0 F = .subnormal := (f32Class_subnormal_iff_eq 0 F).2 ⟨rfl, hF⟩
  exact encodeRow_outcome .subnormal s (encodeMag_of_subnormal _ hclass) rfl

/-- The byte of a NaN code: exponent field 7 and the payload (R64). -/
theorem mf8OfMag_nan (S : Sign) (np : BitVec 4) : mf8OfMag S (0x70 + np.toNat) = S ++ 0b111#3 ++ np :=
  (mf8Word_eq_mf8OfMag S 7 np).symm

theorem encodeWith_of_nan (np : BitVec 4) {w : F32} (h : f32ClassOf w = .nan) :
    encodeWith np w = f32Sign w ++ 0b111#3 ++ np := by
  rw [encodeWith, encodeMag_of_nan np h, mf8OfMag_nan]

/-- Settles O18: a NaN has the code `0x70` plus the payload, whatever its mantissa. -/
theorem encodeNanGivesTheFixedPayload : Obligations.EncodeNanGivesTheFixedPayload := by
  unfold Obligations.EncodeNanGivesTheFixedPayload
  have hclass : ∀ F : BitVec 23, F ≠ 0 → f32Class 0xFF F = .nan := fun F hF =>
    (f32Class_nan_iff_eq 0xFF F).2 ⟨rfl, hF⟩
  constructor
  · intro S F s hF
    exact encodeRow_outcome .nan s (encodeMag_of_nan _ (hclass F hF)) (mf8OfMag_nan S _)
  · intro np S F hF
    rw [encodeWith_f32Word, encodeMag_of_nan np (hclass F hF), mf8OfMag_nan]

/-- The payload takes part in the code of a NaN alone (R7). -/
theorem encodeMag_payload {E : BitVec 8} {F : BitVec 23} (h : f32Class E F ≠ .nan) (np np' : BitVec 4) :
    encodeMag np E F = encodeMag np' E F := by
  unfold encodeMag
  cases hc : f32Class E F with
  | nan => exact absurd hc h
  | _ => rfl

/-- Settles O19: by whether the operand is a NaN. -/
theorem payloadMattersOnlyForNan : Obligations.PayloadMattersOnlyForNan := by
  unfold Obligations.PayloadMattersOnlyForNan
  intro np np' w
  exact ⟨fun h => by rw [encodeWith, encodeWith, encodeMag_payload h np np'], encodeWith_of_nan np⟩

/-- Settles O20: an overflow has the code `0x6F`. -/
theorem encodeOverflowSaturates : Obligations.EncodeOverflowSaturates := by
  unfold Obligations.EncodeOverflowSaturates
  intro S E F s hlow hhigh
  have hclass : f32Class E F = .overflow := (f32Class_overflow_iff E F).2 ⟨hlow, hhigh⟩
  exact encodeRow_outcome .overflow s (encodeMag_of_overflow _ hclass) rfl

/-- Six or more places shift the five-bit significand out entirely (R69). -/
theorem retained_eq_zero {E : BitVec 8} (F : BitVec 23) (h : E.toNat ≤ 119) : retained E F = 0 := by
  rw [retained, shiftAmount_eq, Nat.shiftRight_eq_div_pow]
  exact Nat.div_eq_of_lt ((sig5 F).isLt.trans_le (Nat.pow_le_pow_right two_pos (by omega)))

/-- The highest discarded bit is then above the significand's top (R69). -/
theorem highestDiscarded_eq_zero {E : BitVec 8} (F : BitVec 23) (h : E.toNat ≤ 119) :
    highestDiscarded E F = 0 := by
  have hshift : (sig5 F).toNat / 2 ^ (125 - E.toNat - 1) = 0 :=
    Nat.div_eq_of_lt ((sig5 F).isLt.trans_le (Nat.pow_le_pow_right two_pos (by omega)))
  rw [highestDiscarded, shiftAmount_eq, Nat.shiftRight_eq_div_pow, hshift, Nat.zero_and]

/-- Settles O25: the row has the code 0, and the shift leaves nothing. -/
theorem encodeUnderflowZeroGivesSignedZero : Obligations.EncodeUnderflowZeroGivesSignedZero := by
  unfold Obligations.EncodeUnderflowZeroGivesSignedZero
  intro S E F s hlow hhigh
  have hclass : f32Class E F = .underflowZero := (f32Class_underflowZero_iff E F).2 ⟨hlow, hhigh⟩
  have hbyte : mf8OfMag S underflowZeroMag = S ++ 0x00#7 := rfl
  obtain ⟨hrow, hop⟩ := encodeRow_outcome .underflowZero s (encodeMag_of_underflowZero _ hclass) hbyte
  exact ⟨hrow, hop, retained_eq_zero F hhigh, highestDiscarded_eq_zero F hhigh⟩

/-! ## Rounding into the next exponent -/

/-- `uint(w[30:0]) = 2^23 * E + F` (R40, R92). -/
theorem magBits_f32Word (S : Sign) (E : BitVec 8) (F : BitVec 23) :
    magBits (f32Word S E F) = 2 ^ 23 * E.toNat + F.toNat := by
  have := E.isLt
  have := F.isLt
  rw [magBits, f32Word_toNat]
  omega

/-- The rounding carry reaches exponent field 7 from the top of the last binade alone (R67). -/
theorem k1_eq_infinity_iff {E : BitVec 8} (F : BitVec 23) (hlow : 125 ≤ E.toNat) (hhigh : E.toNat ≤ 130) :
    k1 E F = 0x70 ↔ E.toNat = 130 ∧ 0x7C0000 ≤ F.toNat := by
  have := F.isLt
  rw [k1_eq]
  omega

/-- Settles O22: the carry by fields, by pattern, and the code that takes its place. -/
theorem encodeInrangeSaturatesAfterCarry : Obligations.EncodeInrangeSaturatesAfterCarry := by
  unfold Obligations.EncodeInrangeSaturatesAfterCarry
  intro S E F s hlow hhigh
  have hF := F.isLt
  have hcarry := k1_eq_infinity_iff F hlow hhigh
  refine ⟨hcarry, ?pattern, ?rows⟩
  case pattern =>
    rw [hcarry, magBits_f32Word]
    omega
  case rows =>
    intro hk
    have hclass : f32Class E F = .inrange := (f32Class_inrange_iff E F).2 ⟨hlow, hhigh⟩
    have hcode : inrangeMag E F = 0x6F := if_pos hk
    exact encodeRow_outcome .inrange s (encodeMag_of_inrange _ hclass) (congrArg (mf8OfMag S) hcode)

/-! ## The denormal path -/

/-- `q + r` with the shifts and the mask of R68. -/
theorem underflowDenormalMag_eq_shift (E : BitVec 8) (F : BitVec 23) :
    underflowDenormalMag E F = (16 + F.toNat >>> 19) >>> (125 - E.toNat) +
      (((16 + F.toNat >>> 19) >>> (125 - E.toNat - 1)) &&& 1) := by
  rw [underflowDenormalMag, retained, highestDiscarded, sig5_toNat, shiftAmount_eq,
    Nat.shiftRight_eq_div_pow F.toNat]

/-- Settles O23: the statement's `k` is the model's `q + r`, whose table is rounding to a multiple of `2^d`. -/
theorem encodeUnderflowShiftsAndRounds : Obligations.EncodeUnderflowShiftsAndRounds := by
  unfold Obligations.EncodeUnderflowShiftsAndRounds
  intro S E F s hlow hhigh d sig k
  have hF := F.isLt
  have hk : underflowDenormalMag E F = k := underflowDenormalMag_eq_shift E F
  have hclass : f32Class E F = .underflowDenormal := (f32Class_underflowDenormal_iff E F).2 ⟨hlow, hhigh⟩
  have hround : k = (16 + F.toNat / 2 ^ 19 + 2 ^ (124 - E.toNat)) / 2 ^ (125 - E.toNat) :=
    hk.symm.trans (underflowDenormalMag_eq E F hlow hhigh)
  clear_value k
  obtain ⟨hrow, hop⟩ := encodeRow_outcome .underflowDenormal s (encodeMag_of_underflowDenormal _ hclass)
    (congrArg (mf8OfMag S) hk)
  refine ⟨hrow, hop, ?_, ?_, ?_, ?_, ?_⟩ <;> intro hE <;> rw [hE] at hround <;> omega

/-- The rounded code reaches 16 from the top of the last binade alone (R70). -/
theorem underflowDenormalMag_eq_sixteen_iff {E : BitVec 8} (F : BitVec 23) (hlow : 120 ≤ E.toNat)
    (hhigh : E.toNat ≤ 124) : underflowDenormalMag E F = 16 ↔ E.toNat = 124 ∧ 0x780000 ≤ F.toNat := by
  have hF := F.isLt
  rw [underflowDenormalMag_eq E F hlow hhigh]
  have hE : E.toNat = 120 ∨ E.toNat = 121 ∨ E.toNat = 122 ∨ E.toNat = 123 ∨ E.toNat = 124 := by omega
  rcases hE with e | e | e | e | e <;> rw [e] <;> omega

/-- Settles O24: the carry by fields, by pattern, and the byte of code 16. -/
theorem denormalCarryGivesSmallestNormal : Obligations.DenormalCarryGivesSmallestNormal := by
  unfold Obligations.DenormalCarryGivesSmallestNormal
  intro S E F s hlow hhigh
  have hF := F.isLt
  have hcarry := underflowDenormalMag_eq_sixteen_iff F hlow hhigh
  refine ⟨hcarry, ?pattern, ?row⟩
  case pattern =>
    rw [← underflowDenormalMag, hcarry, magBits_f32Word]
    omega
  case row =>
    intro hE hman
    have hclass : f32Class E F = .underflowDenormal := (f32Class_underflowDenormal_iff E F).2 ⟨hlow, hhigh⟩
    have hcode : underflowDenormalMag E F = 16 := hcarry.2 ⟨hE, hman⟩
    have hbyte : mf8OfMag S (underflowDenormalMag E F) = S ++ 0b001#3 ++ 0b0000#4 := by
      rw [hcode]
      exact (mf8Word_eq_mf8OfMag S 1 0).symm
    exact (encodeRow_outcome .underflowDenormal s (encodeMag_of_underflowDenormal _ hclass) hbyte).1

/-- Settles O34: the rebiased exponent and the shift amount are differences with `E`, and each class bounds `E`. -/
theorem encoderArithmeticNeverWraps : Obligations.EncoderArithmeticNeverWraps := by
  unfold Obligations.EncoderArithmeticNeverWraps
  intro E F
  refine ⟨?rebias, ?inrange, ?denormal, ?zero⟩
  case rebias =>
    intro hlow hhigh
    rw [rebiasedExp_eq]
    omega
  case inrange =>
    intro hclass
    obtain ⟨hlow, hhigh⟩ := (f32Class_inrange_iff E F).1 hclass
    refine ⟨?_, k1_le E F hhigh⟩
    rw [k1_eq]
    omega
  case denormal =>
    intro hclass
    obtain ⟨hlow, hhigh⟩ := (f32Class_underflowDenormal_iff E F).1 hclass
    rw [shiftAmount_eq]
    exact ⟨by omega, by omega, (underflowDenormalMag_range E F hlow hhigh).2⟩
  case zero =>
    intro hclass
    obtain ⟨hlow, hhigh⟩ := (f32Class_underflowZero_iff E F).1 hclass
    rw [shiftAmount_eq]
    exact ⟨by omega, by omega, retained_eq_zero F hhigh, highestDiscarded_eq_zero F hhigh⟩

end Sys2Proof.Machine
end

section
/-! Laws of `ENCODE` as a function of the operand's bits (spec/40_encode.md R73, R74; spec/42_numerics.md R92, R94,
R99): what its result depends on, which bytes it gives, and its thresholds; and the laws of `DECODE` that go with
them. -/

namespace Sys2Proof.Machine

/-! ## The sign -/

/-- The exclusive or acts on the three fields of a word apart. -/
theorem xor_f32Word (w v : F32) :
    w ^^^ v = f32Word (f32Sign w ^^^ f32Sign v) (f32Exp w ^^^ f32Exp v) (f32Man w ^^^ f32Man v) := by
  rw [← f32Word_fields (w ^^^ v)]
  simp only [f32Sign, f32Exp, f32Man, BitVec.extractLsb'_xor]

/-- Flipping bit 31 flips the sign and leaves the other two fields. -/
theorem flip_f32Word (w : F32) : w ^^^ 0x80000000 = f32Word (f32Sign w ^^^ 1) (f32Exp w) (f32Man w) := by
  have hs : f32Sign 0x80000000 = 1 := by decide
  have he : f32Exp 0x80000000 = 0 := by decide
  have hf : f32Man 0x80000000 = 0 := by decide
  rw [xor_f32Word, hs, he, hf]
  simp

/-- Flipping the sign of an assembled byte flips bit 7. -/
theorem mf8OfMag_flip (s : Sign) (k : Nat) : mf8OfMag (s ^^^ 1) k = mf8OfMag s k ^^^ 0x80 := by
  have hxor : s ++ BitVec.ofNat 7 k ^^^ (1#1 ++ 0#7) = (s ^^^ 1#1) ++ (BitVec.ofNat 7 k ^^^ 0#7) := BitVec.xor_append
  rw [BitVec.xor_zero] at hxor
  exact hxor.symm

/-- Settles O33: class and code do not see the flip; for the bytes, all 256 of them. -/
theorem signSymmetry : Obligations.SignSymmetry := by
  unfold Obligations.SignSymmetry
  refine ⟨fun np w => ?_, by decide⟩
  rw [flip_f32Word, encodeWith_f32Word, mf8OfMag_flip, encodeWith]

/-! ## What the code depends on -/

section
variable {E : BitVec 8} {F F' : BitVec 23}

/-- Of the mantissa the class sees whether it is 0, and that only at the two ends of `E`. -/
theorem f32Class_congr_man (h : E = 0 ∨ E = 0xFF → (F = 0 ↔ F' = 0)) : f32Class E F = f32Class E F' := by
  have hends : E.toNat ≠ 0 → E.toNat ≠ 255 → f32Class E F = f32Class E F' := by
    intro h0 h255
    rw [f32Class_eq, f32Class_eq, if_neg h0, if_neg h255, if_neg h0, if_neg h255]
  by_cases hE : E = 0 ∨ E = 0xFF
  · simp only [f32Class, f32Primary, h hE]
  · obtain ⟨h0, h255⟩ := not_or.1 hE
    exact hends (fun e => h0 (BitVec.eq_of_toNat_eq e)) (fun e => h255 (BitVec.eq_of_toNat_eq e))

theorem inrangeMag_congr (ht : top4 F = top4 F') (hr : rbit F = rbit F') : inrangeMag E F = inrangeMag E F' := by
  have hk : k1 E F = k1 E F' := by rw [k1, k1, k0, k0, ht, hr]
  rw [inrangeMag, inrangeMag, hk]

theorem underflowDenormalMag_congr (ht : top4 F = top4 F') :
    underflowDenormalMag E F = underflowDenormalMag E F' := by
  simp only [underflowDenormalMag, retained, highestDiscarded, sig5, ht]

/-- Within a class the code depends on `E`, `top4` and, in range, on `rbit` (R73). -/
theorem encodeMag_congr (np : BitVec 4) (hclass : f32Class E F = f32Class E F') (ht : top4 F = top4 F')
    (hr : f32Class E F = .inrange → rbit F = rbit F') : encodeMag np E F = encodeMag np E F' := by
  rw [encodeMag, encodeMag, ← hclass]
  cases hc : f32Class E F with
  | inrange => exact inrangeMag_congr ht (hr hc)
  | underflowDenormal => exact underflowDenormalMag_congr ht
  | _ => rfl

/-- With `E = 0` the code is 0. -/
theorem encodeMag_exp_zero (np : BitVec 4) (F : BitVec 23) : encodeMag np 0 F = 0 := by
  by_cases hF : F = 0
  · exact encodeMag_of_zero np ((f32Class_zero_iff_eq 0 F).2 ⟨rfl, hF⟩)
  · exact encodeMag_of_subnormal np ((f32Class_subnormal_iff_eq 0 F).2 ⟨rfl, hF⟩)

/-- With `E = 255` the code tells infinity from NaN. -/
theorem encodeMag_exp_max (np : BitVec 4) (F : BitVec 23) :
    encodeMag np 0xFF F = if F = 0 then 0x70 else 0x70 + np.toNat := by
  split_ifs with hF
  · exact encodeMag_of_inf np ((f32Class_inf_iff_eq 0xFF F).2 ⟨rfl, hF⟩)
  · exact encodeMag_of_nan np ((f32Class_nan_iff_eq 0xFF F).2 ⟨rfl, hF⟩)

end

/-- The fields that stand in bits 31 to 18 (R73 (d)). -/
theorem fields_eq_of_top_bits {w w' : F32} (h : w.toNat >>> 18 = w'.toNat >>> 18) :
    f32Sign w = f32Sign w' ∧ f32Exp w = f32Exp w' ∧ top4 (f32Man w) = top4 (f32Man w') ∧
      rbit (f32Man w) = rbit (f32Man w') := by
  rw [Nat.shiftRight_eq_div_pow, Nat.shiftRight_eq_div_pow] at h
  refine ⟨?_, ?_, ?_, ?_⟩ <;> apply BitVec.eq_of_toNat_eq
  · rw [f32Sign_toNat, f32Sign_toNat]
    omega
  · rw [f32Exp_toNat, f32Exp_toNat]
    omega
  · rw [top4_toNat, top4_toNat, f32Man_toNat, f32Man_toNat]
    omega
  · rw [rbit_toNat, rbit_toNat, f32Man_toNat, f32Man_toNat]
    omega

/-- Settles O36: equal signs and equal codes are equal bytes, and each clause fixes what its class's code reads. -/
theorem encodeDependsOnTopBits : Obligations.EncodeDependsOnTopBits := by
  unfold Obligations.EncodeDependsOnTopBits
  intro np w w'
  have hbyte : f32Sign w = f32Sign w' → encodeMag np (f32Exp w) (f32Man w) = encodeMag np (f32Exp w') (f32Man w') →
      encodeWith np w = encodeWith np w' := fun hs hk => by rw [encodeWith, encodeWith, hs, hk]
  refine ⟨?all, ?expZero, ?expMax, ?inrange, ?overflow, ?underflowZero, ?denormal, ?top⟩
  case all =>
    intro hs hE ht hr hF
    apply hbyte hs
    rw [← hE]
    exact encodeMag_congr np (f32Class_congr_man fun _ => hF) ht fun _ => hr
  case expZero =>
    intro hs h h'
    apply hbyte hs
    rw [h, h', encodeMag_exp_zero, encodeMag_exp_zero]
  case expMax =>
    intro hs h h' hF
    apply hbyte hs
    rw [h, h', encodeMag_exp_max, encodeMag_exp_max]
    simp only [hF]
  case inrange =>
    intro hs hE hclass ht hr
    have hclass' : f32ClassOf w' = .inrange := by
      rw [f32ClassOf, f32Class_inrange_iff] at hclass ⊢
      rwa [← hE]
    apply hbyte hs
    rw [← hE]
    rw [f32ClassOf, ← hE] at hclass'
    exact encodeMag_congr np (hclass.trans hclass'.symm) ht fun _ => hr
  case overflow =>
    intro hs h h'
    exact hbyte hs ((encodeMag_of_overflow np h).trans (encodeMag_of_overflow np h').symm)
  case underflowZero =>
    intro hs h h'
    exact hbyte hs ((encodeMag_of_underflowZero np h).trans (encodeMag_of_underflowZero np h').symm)
  case denormal =>
    intro hs hE hclass ht
    have hclass' : f32Class (f32Exp w) (f32Man w') = .underflowDenormal := by
      rw [f32ClassOf, f32Class_underflowDenormal_iff] at hclass
      rwa [f32Class_underflowDenormal_iff]
    apply hbyte hs
    rw [← hE]
    exact encodeMag_congr np (hclass.trans hclass'.symm) ht fun h => by simp [f32ClassOf, h] at hclass
  case top =>
    intro htop hmax hmax'
    obtain ⟨hs, hE, ht, hr⟩ := fields_eq_of_top_bits htop
    apply hbyte hs
    rw [← hE]
    by_cases h0 : f32Exp w = 0
    · rw [h0, encodeMag_exp_zero, encodeMag_exp_zero]
    · exact encodeMag_congr np (f32Class_congr_man fun h => absurd h (not_or.2 ⟨h0, hmax⟩)) ht fun _ => hr

end Sys2Proof.Machine
end

section
/-! The bytes that `ENCODE` gives and the intervals of the operand that give them (spec/40_encode.md R74;
spec/42_numerics.md R92, R99), `DECODE` on the bits (spec/41_decode.md R80, R83), and one unit after the other
(R95, R96). -/

namespace Sys2Proof.Machine

/-! ## The code and the fields of the result -/

theorem mf8Mag_encodeWith_toNat (np : BitVec 4) (w : F32) :
    (mf8Mag (encodeWith np w)).toNat = encodeMag np (f32Exp w) (f32Man w) := by
  have := encodeMag_le np (f32Exp w) (f32Man w)
  rw [encodeWith, mf8Mag_mf8OfMag, BitVec.toNat_ofNat, Nat.mod_eq_of_lt (by omega)]

theorem mf8Mag_encodeWord_eq_iff (w : F32) (k : BitVec 7) :
    mf8Mag (encodeWord w) = k ↔ encodeMag Config.nanPayload (f32Exp w) (f32Man w) = k.toNat := by
  rw [← mf8Mag_encodeWith_toNat, BitVec.toNat_inj, encodeWord]

theorem mf8Exp_encodeWith_toNat (np : BitVec 4) (w : F32) :
    (mf8Exp (encodeWith np w)).toNat = encodeMag np (f32Exp w) (f32Man w) / 16 :=
  mf8Exp_mf8OfMag_toNat _ (encodeMag_le _ _ _)

theorem mf8Man_encodeWith_toNat (np : BitVec 4) (w : F32) :
    (mf8Man (encodeWith np w)).toNat = encodeMag np (f32Exp w) (f32Man w) % 16 := by
  have := encodeMag_le np (f32Exp w) (f32Man w)
  rw [mf8Man, BitVec.extractLsb'_toNat, encodeWith_toNat, Nat.shiftRight_zero]
  omega

theorem encodeMag_eq_infinity_iff {np : BitVec 4} (hnp : np ≠ 0) (E : BitVec 8) (F : BitVec 23) :
    encodeMag np E F = 0x70 ↔ f32Class E F = .inf :=
  ⟨class_inf_of_encodeMag hnp, encodeMag_of_inf np⟩

/-- The code of a NaN is no finite operand's and not that of infinity (R7, R74). -/
theorem encodeMag_eq_nan_iff {np : BitVec 4} (hnp : np ≠ 0) (E : BitVec 8) (F : BitVec 23) :
    encodeMag np E F = 0x70 + np.toNat ↔ f32Class E F = .nan := by
  refine ⟨fun h => ?_, encodeMag_of_nan np⟩
  by_contra hnan
  have hpos : np.toNat ≠ 0 := fun e => hnp (BitVec.eq_of_toNat_eq e)
  by_cases hinf : f32Class E F = .inf
  · rw [encodeMag_of_inf np hinf] at h
    omega
  · have hfinite : encodeMag np E F ≤ 0x6F := encodeMag_le_maxFinite np hinf hnan
    omega

/-- Exponent field 7 comes from `E = 255` alone (R74, R99). -/
theorem mf8Exp_encodeWith_eq_seven_iff (np : BitVec 4) (w : F32) :
    mf8Exp (encodeWith np w) = 7 ↔ f32Exp w = 0xFF := by
  constructor
  · intro h
    rcases inf_or_nan_of_encodeWith_exp np w h with hc | hc
    · exact ((f32Class_inf_iff_eq _ _).1 hc).1
    · exact ((f32Class_nan_iff_eq _ _).1 hc).1
  · intro h
    have := np.isLt
    apply BitVec.eq_of_toNat_eq
    rw [mf8Exp_encodeWith_toNat, h, encodeMag_exp_max]
    split_ifs
    · rfl
    · change (0x70 + np.toNat) / 16 = 7
      omega

/-- A class other than infinity and NaN has a code up to `0x6F`, those two have `0x70` and more (R74). -/
theorem encodeMag_cases (np : BitVec 4) (E : BitVec 8) (F : BitVec 23) :
    encodeMag np E F ≤ 0x6F ∨ encodeMag np E F = 0x70 ∨ encodeMag np E F = 0x70 + np.toNat := by
  by_cases hinf : f32Class E F = .inf
  · exact .inr (.inl (encodeMag_of_inf np hinf))
  · by_cases hnan : f32Class E F = .nan
    · exact .inr (.inr (encodeMag_of_nan np hnan))
    · exact .inl (encodeMag_le_maxFinite np hinf hnan)

/-! ## The range -/

/-- `DECODE` gives an operand of every byte that is a finite value, an infinity or the NaN of the payload. -/
theorem encodeWord_decodeByte : ∀ {b : MF8}, (mf8Mag b).toNat ≤ 0x70 ∨ (mf8Mag b).toNat = 0x7F →
    encodeWord (decodeByte b) = b := by decide

theorem mf8Mag_encodeWord_range (w : F32) :
    (mf8Mag (encodeWord w)).toNat ≤ 0x70 ∨ (mf8Mag (encodeWord w)).toNat = 0x7F := by
  rw [encodeWord, mf8Mag_encodeWith_toNat]
  rcases encodeMag_cases Config.nanPayload (f32Exp w) (f32Man w) with h | h | h
  · exact .inl (h.trans (by decide))
  · exact .inl h.le
  · exact .inr h

/-- Settles O37: the codes by class, and the image by `DECODE` as a right inverse on it. -/
theorem rangeOfEncode : Obligations.RangeOfEncode := by
  unfold Obligations.RangeOfEncode
  have hnp : Config.nanPayload ≠ 0 := by decide
  refine ⟨fun w => ?inf, fun w => ?nan, mf8Exp_encodeWith_eq_seven_iff _, fun b => ⟨?range, ?image⟩,
    by decide +kernel⟩
  case inf => exact (mf8Mag_encodeWord_eq_iff w 0x70).trans (encodeMag_eq_infinity_iff hnp _ _)
  case nan => exact (mf8Mag_encodeWord_eq_iff w 0x7F).trans (encodeMag_eq_nan_iff hnp _ _)
  case range =>
    rintro ⟨w, rfl⟩
    exact mf8Mag_encodeWord_range w
  case image => exact fun h => ⟨decodeByte b, encodeWord_decodeByte h⟩

/-! ## The thresholds -/

theorem magBits_eq (w : F32) : magBits w = 2 ^ 23 * (f32Exp w).toNat + (f32Man w).toNat := by
  rw [← magBits_f32Word (f32Sign w), f32Word_fields]

/-- Settles O38: each interval of the pattern is a range of `E`, or a range of `F` for one `E`. -/
theorem thresholdsOfEncode : Obligations.ThresholdsOfEncode := by
  unfold Obligations.ThresholdsOfEncode
  intro w n k c
  have hn : n = 2 ^ 23 * (f32Exp w).toNat + (f32Man w).toNat := magBits_eq w
  have hk : k = encodeMag Config.nanPayload (f32Exp w) (f32Man w) := mf8Mag_encodeWith_toNat _ w
  have hc : c = f32Class (f32Exp w) (f32Man w) := rfl
  rw [hk, hc]
  clear_value n
  generalize f32Exp w = E at hn ⊢
  generalize f32Man w = F at hn ⊢
  have hE := E.isLt
  have hF := F.isLt
  refine ⟨?zero, ?subnormal, ?underflowZero, ?denormal, ?denormalCarry, ?inrange, ?inrangeCarry, ?overflow, ?inf,
    ?nan⟩
  case zero =>
    intro h
    have hclass : f32Class E F = .zero := (f32Class_zero_iff E F).2 (by omega)
    exact ⟨hclass, encodeMag_of_zero _ hclass⟩
  case subnormal =>
    intro h h'
    have hclass : f32Class E F = .subnormal := (f32Class_subnormal_iff E F).2 (by omega)
    exact ⟨hclass, encodeMag_of_subnormal _ hclass⟩
  case underflowZero =>
    intro h h'
    have hclass : f32Class E F = .underflowZero := (f32Class_underflowZero_iff E F).2 (by omega)
    exact ⟨hclass, encodeMag_of_underflowZero _ hclass⟩
  case denormal =>
    intro h h'
    have hclass : f32Class E F = .underflowDenormal := (f32Class_underflowDenormal_iff E F).2 (by omega)
    have hrange := underflowDenormalMag_range E F (by omega) (by omega)
    have hcarry := underflowDenormalMag_eq_sixteen_iff F (E := E) (by omega) (by omega)
    rw [encodeMag_of_underflowDenormal _ hclass]
    exact ⟨hclass, by omega, by omega⟩
  case denormalCarry =>
    intro h h'
    have hclass : f32Class E F = .underflowDenormal := (f32Class_underflowDenormal_iff E F).2 (by omega)
    have hcarry := underflowDenormalMag_eq_sixteen_iff F (E := E) (by omega) (by omega)
    rw [encodeMag_of_underflowDenormal _ hclass]
    exact ⟨hclass, hcarry.2 (by omega)⟩
  case inrange =>
    intro h h'
    have hclass : f32Class E F = .inrange := (f32Class_inrange_iff E F).2 (by omega)
    have hcarry := k1_eq_infinity_iff F (E := E) (by omega) (by omega)
    have hk1 := k1_eq E F
    rw [encodeMag_of_inrange _ hclass, inrangeMag_eq_k1 (by omega)]
    exact ⟨hclass, by omega, by omega⟩
  case inrangeCarry =>
    intro h h'
    have hclass : f32Class E F = .inrange := (f32Class_inrange_iff E F).2 (by omega)
    have hcarry := (k1_eq_infinity_iff F (E := E) (by omega) (by omega)).2 (by omega)
    rw [encodeMag_of_inrange _ hclass]
    exact ⟨hclass, if_pos hcarry⟩
  case overflow =>
    intro h h'
    have hclass : f32Class E F = .overflow := (f32Class_overflow_iff E F).2 (by omega)
    exact ⟨hclass, encodeMag_of_overflow _ hclass⟩
  case inf =>
    intro h
    have hclass : f32Class E F = .inf := (f32Class_inf_iff E F).2 (by omega)
    exact ⟨hclass, encodeMag_of_inf _ hclass⟩
  case nan =>
    intro h
    have hclass : f32Class E F = .nan := (f32Class_nan_iff E F).2 (by omega)
    exact ⟨hclass, encodeMag_of_nan _ hclass⟩

/-! ## Infinity and NaN -/

/-- Settles O40: the fields of the code that `E = 255` gives, and the 256 bytes. -/
theorem specialOperandsStaySpecial : Obligations.SpecialOperandsStaySpecial := by
  unfold Obligations.SpecialOperandsStaySpecial
  refine ⟨fun np w hnp => ⟨mf8Exp_encodeWith_eq_seven_iff np w, fun hE => ?_⟩, by decide, by decide, by decide⟩
  have hpos : np.toNat ≠ 0 := fun e => hnp (BitVec.eq_of_toNat_eq e)
  have hlt := np.isLt
  rw [← BitVec.toNat_inj, mf8Man_encodeWith_toNat, hE, encodeMag_exp_max]
  split_ifs with hF
  · simp [hF]
  · simp only [hF, iff_false]
    change (0x70 + np.toNat) % 16 ≠ 0
    omega

/-! ## One unit after the other -/

/-- Over the 256 bytes: `DECODE` keeps NaN apart from the rest, and its sign. -/
theorem decodeByte_not_nan : ∀ b : MF8, mf8ClassOf b ≠ .nan →
    f32ClassOf (decodeByte b) ≠ .nan ∧ (mf8Mag b).toNat ≤ 0x70 := by decide

theorem decodeByte_of_nan : ∀ b : MF8, mf8ClassOf b = .nan →
    f32ClassOf (decodeByte b) = .nan ∧ f32Sign (decodeByte b) = mf8Sign b := by decide

theorem encodeWith_decodeByte_of_nan (np : BitVec 4) {b : MF8} (hb : mf8ClassOf b = .nan) :
    encodeWith np (decodeByte b) = mf8Sign b ++ 0b111#3 ++ np := by
  obtain ⟨hclass, hsign⟩ := decodeByte_of_nan b hb
  rw [encodeWith_of_nan np hclass, hsign]

/-- Settles O49: the payload takes part in the results of NaNs alone, so that one payload stands for all. -/
theorem encodeAfterDecode : Obligations.EncodeAfterDecode := by
  unfold Obligations.EncodeAfterDecode
  intro np b
  refine ⟨fun hb => ?_, encodeWith_decodeByte_of_nan np⟩
  obtain ⟨hclass, hcode⟩ := decodeByte_not_nan b hb
  have hpayload : encodeWith np (decodeByte b) = encodeWord (decodeByte b) := by
    rw [encodeWith, encodeMag_payload hclass np Config.nanPayload]
    rfl
  rw [hpayload, encodeWord_decodeByte (.inl hcode)]

/-- Settles O50: `ENCODE` after `DECODE` gives back the bytes that are no NaN, and every byte that `ENCODE` gives. -/
theorem roundTripIsIdempotent : Obligations.RoundTripIsIdempotent := by
  unfold Obligations.RoundTripIsIdempotent
  refine ⟨fun b hb => ?other, fun b hb => ?nan, fun w => ?twice⟩
  case other => rw [roundTrip32, encodeWord_decodeByte (.inl (decodeByte_not_nan b hb).2)]
  case nan =>
    have hnan : ∀ s : Sign, decodeByte (s ++ 0b111#3 ++ Config.nanPayload) = s ++ 0x7FF80000#31 := by decide
    rw [roundTrip32, encodeWord, encodeWith_decodeByte_of_nan _ hb, hnan]
  case twice => rw [roundTrip32, roundTrip32, encodeWord_decodeByte (mf8Mag_encodeWord_range w)]

/-! ## `DECODE` on the bits -/

/-- Settles O29: the output fields of a NaN are 255 and the mantissa in the top four bits. -/
theorem decodeNanForwardsThePayload : Obligations.DecodeNanForwardsThePayload := by
  unfold Obligations.DecodeNanForwardsThePayload
  intro g m s hm
  have hclass : mf8Class 7 m = .nan := if_neg hm
  have hfields : decodeFields 7 m = nanFields m := by rw [decodeFields, hclass]
  have hword : ∀ (g : Sign) (m : BitVec 4), f32OfPair g (nanFields m) = g ++ 0xFF#8 ++ m ++ 0#19 := by decide
  have hnan : ∀ (g : Sign) (m : BitVec 4), m ≠ 0 → f32ClassOf (f32OfPair g (nanFields m)) = .nan := by decide
  obtain ⟨hrow, hop⟩ := decodeRow_outcome .nan s hfields (hword g m)
  exact ⟨hrow, hop, hword g m ▸ hnan g m hm⟩

/-- Settles O35: over the 256 bytes. -/
theorem decoderIsExactOnBits : Obligations.DecoderIsExactOnBits := by
  unfold Obligations.DecoderIsExactOnBits
  decide

end Sys2Proof.Machine
end

section
/-! The value set (spec/30_encoding.md R53; spec/42_numerics.md R85) and `DECODE` on values (spec/41_decode.md
R84): values in units of 2^-6, which the decoder keeps exactly. -/

namespace Sys2Proof.Machine

/-! ## Values of bytes -/

theorem signFactor_zero : signFactor 0 = 1 := if_neg (by decide)

/-- A non-negative byte's value in units of 2^-6 (R53). -/
theorem val8_of_nonneg {b : MF8} {n : Nat} (he : (mf8Exp b).toNat ≠ 7) (hs : mf8Sign b = 0)
    (hn : scaledV (b.toNat % 128) = n) : val8 b = some ((n : ℚ) / 64) := by
  rw [val8_eq_scaled b he, hs, hn, signFactor_zero, one_mul]

theorem val8_eq_none {b : MF8} (he : (mf8Exp b).toNat = 7) : val8 b = none := if_pos he

/-- Settles O42: five values in units of 2^-6, and two bytes with exponent field 7. -/
theorem valuesOfNotableBytes : Obligations.ValuesOfNotableBytes := by
  unfold Obligations.ValuesOfNotableBytes
  refine ⟨?_, ?_, ?_, ?_, ?_, val8_eq_none (by decide), val8_eq_none (by decide)⟩
  · rw [val8_of_nonneg (n := 1) (by decide) (by decide) (by decide)]; norm_num
  · rw [val8_of_nonneg (n := 15) (by decide) (by decide) (by decide)]; norm_num
  · rw [val8_of_nonneg (n := 16) (by decide) (by decide) (by decide)]; norm_num
  · rw [val8_of_nonneg (n := 64) (by decide) (by decide) (by decide)]; norm_num
  · rw [val8_of_nonneg (n := 992) (by decide) (by decide) (by decide)]; norm_num

/-! ## `DECODE` keeps values -/

/-- `E_out = e + 124` and `m << 19` stand for the byte's own value (R81, R84). -/
theorem val32_normalFields (g : Sign) {e : BitVec 3} (m : BitVec 4) (hhigh : e.toNat ≤ 6) :
    val32 (f32OfPair g (normalFields e m)) =
      some (signFactor g * (2 : ℚ) ^ ((e.toNat : ℤ) - 3) * (1 + (m.toNat : ℚ) / 16)) := by
  have hm := m.isLt
  have hF : m.toNat <<< 19 < 2 ^ 23 := by
    rw [Nat.shiftLeft_eq]
    omega
  have hexp : ((e.toNat + 124 : ℕ) : ℤ) - 127 = (e.toNat : ℤ) - 3 := by omega
  have hman : ((m.toNat <<< 19 : ℕ) : ℚ) / 2 ^ 23 = (m.toNat : ℚ) / 16 := by
    rw [Nat.shiftLeft_eq]
    push_cast
    ring
  rw [normalFields_eq, f32OfPair, val32_f32OfFields g (by omega) (by omega) hF, hexp, hman]

/-- `DECODE` of a finite byte has the byte's value (R84). -/
theorem val32_decodeByte {b : MF8} (h : mf8Exp b ≠ 7) : val32 (decodeByte b) = val8 b := by
  have h7 : (mf8Exp b).toNat ≠ 7 := fun e => h (BitVec.eq_of_toNat_eq e)
  have hlt := (mf8Exp b).isLt
  simp only [val8]
  rw [decodeByte, if_neg h7]
  by_cases h0 : (mf8Exp b).toNat = 0
  · have hexp : mf8Exp b = 0 := BitVec.eq_of_toNat_eq h0
    rw [if_pos h0, hexp]
    by_cases hm : mf8Man b = 0
    · have hfields : f32OfPair (mf8Sign b) (decodeFields 0 0) = f32Word (mf8Sign b) 0 0 := rfl
      rw [hm, hfields, val32_small _ (mf8Sign b) 0 (f32Sign_f32Word _ _ _) (by simp) (by simp)]
      simp
    · rw [decodeFields_of_denormal hm, val32_denormalFields _ hm]
  · rw [if_neg h0, decodeFields_of_normal _ (by omega) (by omega), val32_normalFields _ _ (by omega)]

/-! ## The value set -/

theorem scaledV_lt_of_lt {j k : Nat} (hjk : j < k) (hk : k ≤ 0x6F) : scaledV j < scaledV k :=
  strictMonoOn_Iic_of_lt_succ (n := 0x6F) (fun m hm => scaledV_strictMono ⟨m, hm⟩) (hjk.le.trans hk) hk hjk

/-- The values of the set increase strictly (R85). -/
theorem valueSet_lt_of_lt {j k : Nat} (hjk : j < k) (hk : k ≤ 0x6F) : valueSet j < valueSet k := by
  have := scaledV_lt_of_lt hjk hk
  rw [valueSet_eq_scaled j (by omega), valueSet_eq_scaled k hk]
  gcongr

/-- Up to the second binade the values are the multiples of 2^-6 (R85). -/
theorem scaledV_of_le {k : Nat} (hk : k ≤ 31) : scaledV k = k := by
  have hfinite : ∀ k : Fin 32, scaledV k.val = k.val := by decide
  exact hfinite ⟨k, by omega⟩

/-- `V[16e + m] = 2^(e-3) * (1 + m/16)` (R85). -/
theorem valueSet_normal {e m : Nat} (hlow : 1 ≤ e) (hhigh : e ≤ 6) (hm : m ≤ 15) :
    valueSet (16 * e + m) = (2 : ℚ) ^ ((e : ℤ) - 3) * (1 + (m : ℚ) / 16) := by
  rw [valueSet_eq_scaled _ (by omega), ← scaledV_split e m hhigh hm, if_neg (by omega)]

/-- `V[k]` is the value of the byte `k`, which is finite and not negative (R85). -/
theorem val8_ofNat {k : Nat} (hk : k ≤ 0x6F) :
    mf8Exp (BitVec.ofNat 8 k) ≠ 7 ∧ val8 (BitVec.ofNat 8 k) = some (valueSet k) := by
  have hbyte : ∀ k : Fin 112, (mf8Exp (BitVec.ofNat 8 k.val)).toNat ≠ 7 := by decide
  have hexp := hbyte ⟨k, by omega⟩
  refine ⟨fun h => hexp (by rw [h]; rfl), ?_⟩
  rw [valueSet, val8_eq_scaled _ hexp, Option.getD_some]

/-- Settles O43: the set in units of 2^-6, and `DECODE` for its members in float32. -/
theorem valueSetIsStrictlyIncreasing : Obligations.ValueSetIsStrictlyIncreasing := by
  unfold Obligations.ValueSetIsStrictlyIncreasing
  refine ⟨?zero, fun k _ hk => ?multiples, fun e m hlow hhigh hm => ⟨valueSet_normal hlow hhigh hm, ?scaled⟩,
    fun j k => valueSet_lt_of_lt, ?largest, fun k hk => ?member⟩
  case zero => rw [valueSet_eq_scaled 0 (by omega), scaledV_of_le (by omega)]; norm_num
  case multiples => rw [valueSet_eq_scaled k (by omega), scaledV_of_le hk]
  case scaled =>
    have hexp : (2 : ℚ) ^ ((e : ℤ) - 3) = (2 : ℚ) ^ ((e : ℤ) - 7) * 16 := by
      rw [show (e : ℤ) - 3 = ((e : ℤ) - 7) + 4 by ring, zpow_add₀ (by norm_num)]
      norm_num
    rw [valueSet_normal hlow hhigh hm, hexp]
    ring
  case largest =>
    have hscaled : scaledV 0x6F = 992 := by decide
    rw [valueSet_eq_scaled _ le_rfl, hscaled]
    norm_num
  case member =>
    obtain ⟨hexp, hval⟩ := val8_ofNat hk
    exact ⟨decodeByte (BitVec.ofNat 8 k), (val32_decodeByte hexp).trans hval⟩

/-! ## `DECODE` is injective and increasing -/

/-- The mantissa's top four bits are the payload that a NaN byte had, so `ENCODE` with that payload gives every
byte back. -/
theorem encodeWith_own_payload : ∀ b : MF8, encodeWith (top4 (f32Man (decodeByte b))) (decodeByte b) = b := by
  decide

theorem decodeByte_injective {b b' : MF8} (h : decodeByte b = decodeByte b') : b = b' := by
  rw [← encodeWith_own_payload b, h, encodeWith_own_payload]

/-- Up to infinity the words of the non-negative bytes increase strictly (R84). -/
theorem decodeByte_lt_of_lt {j k : Nat} (hjk : j < k) (hk : k ≤ 0x70) :
    (decodeByte (BitVec.ofNat 8 j)).toNat < (decodeByte (BitVec.ofNat 8 k)).toNat := by
  have hstep : ∀ n : Fin 0x70, (decodeByte (BitVec.ofNat 8 n.val)).toNat <
      (decodeByte (BitVec.ofNat 8 (n.val + 1))).toNat := by decide
  exact strictMonoOn_Iic_of_lt_succ (n := 0x70) (ψ := fun n => (decodeByte (BitVec.ofNat 8 n)).toNat)
    (fun m hm => hstep ⟨m, hm⟩) (hjk.le.trans hk) hk hjk

/-- Settles O44: a left inverse, the values of the classes, and strict increase step by step. -/
theorem decodeIsExact : Obligations.DecodeIsExact := by
  unfold Obligations.DecodeIsExact
  refine ⟨fun b b' => decodeByte_injective, fun b => val32_decodeByte, fun b b' hlt hle => ⟨?words, ?values⟩,
    by decide, by decide, by decide⟩
  case words => simpa using decodeByte_lt_of_lt hlt (hle.trans (by decide))
  case values => exact valueSet_lt_of_lt hlt hle

end Sys2Proof.Machine
end

section
/-! Rounding (spec/42_numerics.md R86, R97, R98): a code is reached exactly from the mid-point below it on. Operands
and mid-points are compared as whole numbers, magnitudes in units of 2^-149 and mid-points in units of 2^-7. -/

namespace Sys2Proof.Machine

/-! ## Magnitudes by pattern -/

/-- The magnitude of the operand with pattern `n` without its sign, in units of 2^-149. -/
def scaledBits (n : Nat) : Nat := scaled32 (n / 2 ^ 23) (n % 2 ^ 23)

theorem scaledBits_fields (E F : Nat) (hF : F < 2 ^ 23) : scaledBits (2 ^ 23 * E + F) = scaled32 E F := by
  have hE : (2 ^ 23 * E + F) / 2 ^ 23 = E := by omega
  have hF' : (2 ^ 23 * E + F) % 2 ^ 23 = F := by omega
  rw [scaledBits, hE, hF']

theorem scaledBits_magBits (w : F32) :
    scaledBits (magBits w) = scaled32 (f32Exp w).toNat (f32Man w).toNat := by
  rw [magBits_eq, scaledBits_fields _ _ (f32Man w).isLt]

/-- The next pattern is the next mantissa, or the first one of the next binade, which is twice as wide. -/
theorem scaledBits_lt_succ (n : Nat) : scaledBits n < scaledBits (n + 1) := by
  obtain ⟨E, F, hF, rfl⟩ : ∃ E F, F < 2 ^ 23 ∧ n = 2 ^ 23 * E + F :=
    ⟨n / 2 ^ 23, n % 2 ^ 23, by omega, by omega⟩
  rw [scaledBits_fields E F hF]
  by_cases hlast : F + 1 < 2 ^ 23
  · rw [Nat.add_assoc, scaledBits_fields E (F + 1) hlast]
    unfold scaled32
    split_ifs
    · omega
    · gcongr
      omega
  · have hnext : 2 ^ 23 * E + F + 1 = 2 ^ 23 * (E + 1) + 0 := by omega
    rw [hnext, scaledBits_fields (E + 1) 0 (by norm_num)]
    unfold scaled32
    rcases E with _ | e
    · simp only [if_true]
      norm_num
      omega
    · simp only [Nat.add_eq_zero_iff, one_ne_zero, and_false, if_false, Nat.add_sub_cancel, pow_succ 2 e]
      have := Nat.two_pow_pos e
      nlinarith

/-- Magnitudes are ordered as their patterns are. -/
theorem scaledBits_strictMono : StrictMono scaledBits := strictMono_nat_of_lt_succ scaledBits_lt_succ

/-! ## Mid-points -/

/-- The mid-point below code `k`, in units of 2^-7. -/
def scaledMid (k : Nat) : Nat := scaledV (k - 1) + scaledV k

/-- The pattern of the mid-point below code `k` (R97): below the second binade the mid-point is the whole number
`2k - 1` over 128, from there on it lies half a mantissa step below the word of `k`. -/
def midpointBits (k : Nat) : Nat :=
  if k ≤ 16 then 2 ^ 23 * (119 + Nat.log2 (2 * k - 1)) + (2 * k - 1) * 2 ^ (23 - Nat.log2 (2 * k - 1))
  else 2 ^ 19 * (k + 1984) - 2 ^ 18

/-- Every mid-point is a float32 value, in range of finite results (R97). -/
theorem scaledBits_midpointBits {k : Nat} (hlow : 1 ≤ k) (hhigh : k ≤ 0x6F) :
    scaledBits (midpointBits k) = scaledMid k * 2 ^ 142 ∧ midpointBits k < 2 ^ 23 * 131 := by
  have hcodes : ∀ k : Fin 111, scaledBits (midpointBits (k.val + 1)) = scaledMid (k.val + 1) * 2 ^ 142 ∧
      midpointBits (k.val + 1) < 2 ^ 23 * 131 := by decide
  have hk : k - 1 + 1 = k := by omega
  exact hk ▸ hcodes ⟨k - 1, by omega⟩

theorem scaledMid_lt_of_lt {j k : Nat} (hlow : 1 ≤ j) (hjk : j < k) (hk : k ≤ 0x6F) :
    scaledMid j < scaledMid k := by
  have h1 : scaledV (j - 1) < scaledV (k - 1) := scaledV_lt_of_lt (by omega) (by omega)
  have h2 : scaledV j < scaledV k := scaledV_lt_of_lt hjk hk
  unfold scaledMid
  omega

/-- Below the second binade the mid-points are the odd multiples of 2^-7. -/
theorem scaledMid_of_le {k : Nat} (hlow : 1 ≤ k) (hhigh : k ≤ 31) : scaledMid k = 2 * k - 1 := by
  rw [scaledMid, scaledV_of_le (by omega), scaledV_of_le hhigh]
  omega

theorem valueMidpoint_eq_scaled {k : Nat} (hk : k ≤ 0x6F) : valueMidpoint k = scaledMid k / 128 := by
  rw [valueMidpoint, valueSet_eq_scaled (k - 1) (by omega), valueSet_eq_scaled k hk, scaledMid]
  push_cast
  ring

/-! ## A code is reached from its mid-point on -/

section
variable {E : BitVec 8} {F : BitVec 23} {k : Nat}

/-- On the denormal path a code is reached from its mid-point on: `top4` decides, since `2k - 1` steps of 2^-7 are
a whole number of steps of `top4` (R68). -/
theorem le_underflowDenormalMag_iff (hlow : 120 ≤ E.toNat) (hhigh : E.toNat ≤ 124) (hk : 1 ≤ k) :
    k ≤ underflowDenormalMag E F ↔ (2 * k - 1) * 2 ^ 142 ≤ scaled32 E.toNat F.toNat := by
  rw [underflowDenormalMag_eq E F hlow hhigh, scaled32, if_neg (by omega)]
  have hE : E.toNat = 120 ∨ E.toNat = 121 ∨ E.toNat = 122 ∨ E.toNat = 123 ∨ E.toNat = 124 := by omega
  rcases hE with e | e | e | e | e <;> rw [e] <;> omega

/-- The mid-points of the codes that the denormal path gives lie in its own five binades. -/
theorem midpointBits_of_le (hlow : 1 ≤ k) (hhigh : k ≤ 16) :
    2 ^ 23 * 120 ≤ midpointBits k ∧ midpointBits k < 2 ^ 23 * 125 := by
  have hcodes : ∀ k : Fin 16,
      2 ^ 23 * 120 ≤ midpointBits (k.val + 1) ∧ midpointBits (k.val + 1) < 2 ^ 23 * 125 := by decide
  have hk : k - 1 + 1 = k := by omega
  exact hk ▸ hcodes ⟨k - 1, by omega⟩

theorem midpointBits_of_lt (h : 16 < k) : midpointBits k = 2 ^ 19 * (k + 1984) - 2 ^ 18 := if_neg (by omega)

/-- In range a code is reached from half a mantissa step below its word on (R66). -/
theorem le_inrangeMag_iff (hlow : 125 ≤ E.toNat) (hhigh : E.toNat ≤ 130) (hk : 16 < k) (hmax : k ≤ 0x6F) :
    k ≤ inrangeMag E F ↔ midpointBits k ≤ 2 ^ 23 * E.toNat + F.toNat := by
  have hF := F.isLt
  have hk1 := k1_eq E F
  rw [midpointBits_of_lt hk]
  by_cases hcarry : k1 E F = 112
  · have hcode : inrangeMag E F = 0x6F := if_pos hcarry
    omega
  · rw [inrangeMag_eq_k1 hcarry]
    omega

theorem inrangeMag_ge (hlow : 125 ≤ E.toNat) : 16 ≤ inrangeMag E F := by
  have hk1 := k1_eq E F
  by_cases hcarry : k1 E F = 112
  · have hcode : inrangeMag E F = 0x6F := if_pos hcarry
    omega
  · rw [inrangeMag_eq_k1 hcarry]
    omega

theorem midpointBits_le_iff_scaled (hlow : 1 ≤ k) (hhigh : k ≤ 0x6F) :
    midpointBits k ≤ 2 ^ 23 * E.toNat + F.toNat ↔ scaledMid k * 2 ^ 142 ≤ scaled32 E.toNat F.toNat := by
  rw [← scaledBits_fields _ _ F.isLt, ← (scaledBits_midpointBits hlow hhigh).1, scaledBits_strictMono.le_iff_le]

/-- `ENCODE` of a finite operand gives code `k` or a greater one exactly from the mid-point below `k` on (R97). -/
theorem le_encodeMag_iff (np : BitVec 4) (hfinite : E.toNat ≠ 255) (hlow : 1 ≤ k) (hhigh : k ≤ 0x6F) :
    k ≤ encodeMag np E F ↔ midpointBits k ≤ 2 ^ 23 * E.toNat + F.toNat := by
  have hF := F.isLt
  have hbelow := (scaledBits_midpointBits hlow hhigh).2
  have hsmall : k ≤ 16 → 2 ^ 23 * 120 ≤ midpointBits k ∧ midpointBits k < 2 ^ 23 * 125 :=
    midpointBits_of_le hlow
  have hlarge : 16 < k → midpointBits k = 2 ^ 19 * (k + 1984) - 2 ^ 18 := midpointBits_of_lt
  cases hclass : f32Class E F with
  | zero =>
    obtain ⟨hE, -⟩ := (f32Class_zero_iff E F).1 hclass
    rw [encodeMag_of_zero np hclass]
    omega
  | subnormal =>
    obtain ⟨hE, -⟩ := (f32Class_subnormal_iff E F).1 hclass
    rw [encodeMag_of_subnormal np hclass]
    omega
  | inf => exact absurd ((f32Class_inf_iff E F).1 hclass).1 hfinite
  | nan => exact absurd ((f32Class_nan_iff E F).1 hclass).1 hfinite
  | overflow =>
    obtain ⟨hE, -⟩ := (f32Class_overflow_iff E F).1 hclass
    rw [encodeMag_of_overflow np hclass]
    omega
  | inrange =>
    obtain ⟨hE, hE'⟩ := (f32Class_inrange_iff E F).1 hclass
    rw [encodeMag_of_inrange np hclass]
    by_cases hk : k ≤ 16
    · have := inrangeMag_ge (F := F) hE
      omega
    · exact le_inrangeMag_iff hE hE' (by omega) hhigh
  | underflowDenormal =>
    obtain ⟨hE, hE'⟩ := (f32Class_underflowDenormal_iff E F).1 hclass
    rw [encodeMag_of_underflowDenormal np hclass]
    by_cases hk : k ≤ 16
    · rw [midpointBits_le_iff_scaled hlow hhigh, scaledMid_of_le hlow (by omega)]
      exact le_underflowDenormalMag_iff hE hE' hlow
    · have := (underflowDenormalMag_range E F hE hE').2
      omega
  | underflowZero =>
    obtain ⟨-, hE⟩ := (f32Class_underflowZero_iff E F).1 hclass
    rw [encodeMag_of_underflowZero np hclass]
    omega

end

/-! ## Values -/

section
variable (np : BitVec 4) {w : F32} {x : ℚ}

theorem finite_of_val32 (h : val32 w = some x) : (f32Exp w).toNat ≠ 255 := by
  intro hE
  rw [(val32_eq_none_iff w).2 hE] at h
  cases h

/-- The code of a finite operand is that of a finite byte. -/
theorem encodeMag_le_of_finite {E : BitVec 8} {F : BitVec 23} (hfinite : E.toNat ≠ 255) :
    encodeMag np E F ≤ 0x6F :=
  encodeMag_le_maxFinite np (fun hc => hfinite ((f32Class_inf_iff _ _).1 hc).1)
    fun hc => hfinite ((f32Class_nan_iff _ _).1 hc).1

theorem mf8Mag_encodeWith_le (h : val32 w = some x) : (mf8Mag (encodeWith np w)).toNat ≤ 0x6F := by
  rw [mf8Mag_encodeWith_toNat]
  exact encodeMag_le_of_finite np (finite_of_val32 h)

/-- A mid-point and a magnitude compare as the whole numbers that stand for them. -/
theorem valueMidpoint_le_iff (h : val32 w = some x) {k : Nat} (hk : k ≤ 0x6F) :
    valueMidpoint k ≤ |x| ↔ scaledMid k * 2 ^ 142 ≤ scaled32 (f32Exp w).toNat (f32Man w).toNat := by
  have hunit : (2 : ℚ) ^ (-149 : ℤ) = 1 / 2 ^ 142 / 128 := by norm_num
  rw [valueMidpoint_eq_scaled hk, abs_val32 w x h, hunit, ← mul_div_assoc,
    div_le_div_iff_of_pos_right (by norm_num), mul_one_div, le_div_iff₀ (by positivity)]
  exact_mod_cast Iff.rfl

/-- `ENCODE` of a finite operand gives code `k` or a greater one exactly when the mid-point below `k` does not
exceed the operand's magnitude (R97). -/
theorem le_mf8Mag_iff_midpoint (h : val32 w = some x) {k : Nat} (hlow : 1 ≤ k) (hhigh : k ≤ 0x6F) :
    k ≤ (mf8Mag (encodeWith np w)).toNat ↔ valueMidpoint k ≤ |x| := by
  rw [mf8Mag_encodeWith_toNat, le_encodeMag_iff np (finite_of_val32 h) hlow hhigh,
    midpointBits_le_iff_scaled hlow hhigh, valueMidpoint_le_iff h hhigh]

end

/-- Settles O45: the code is the greatest one whose mid-point is reached. -/
theorem encodeTakesTheLargestCodeAtOrBelow : Obligations.EncodeTakesTheLargestCodeAtOrBelow := by
  unfold Obligations.EncodeTakesTheLargestCodeAtOrBelow
  intro np w x h k
  have hk : k ≤ 0x6F := mf8Mag_encodeWith_le np h
  refine ⟨encodeWith_getLsbD_sign np w, hk, ?reached, fun j hj hmax => ?next⟩
  case reached =>
    by_cases h0 : k = 0
    · exact .inl h0
    · exact .inr ((le_mf8Mag_iff_midpoint np h (by omega) hk).1 le_rfl)
  case next =>
    exact not_le.1 fun hle => hj.not_ge ((le_mf8Mag_iff_midpoint np h (by omega) hmax).2 hle)

end Sys2Proof.Machine
end

section
/-! What follows from the mid-points (spec/42_numerics.md R86, R90, R97, R98): `ENCODE` rounds to nearest with ties
away from zero, keeps the order of the operands, and gives 0 below 2^-7. -/

namespace Sys2Proof.Machine

/-! ## Rounding to nearest -/

/-- From the middle of two values on, the greater one is the nearer, or as near. -/
theorem abs_sub_le_of_midpoint_le {a u v : ℚ} (huv : u < v) (h : (u + v) / 2 ≤ a) : |a - v| ≤ |a - u| := by
  rw [abs_of_pos (by linarith : 0 < a - u), abs_le]
  constructor <;> linarith

/-- Below the middle of two values the smaller one is the nearer. -/
theorem abs_sub_lt_of_lt_midpoint {a u v : ℚ} (huv : u < v) (h : a < (u + v) / 2) : |a - u| < |a - v| := by
  rw [abs_of_neg (by linarith : a - v < 0), abs_lt]
  constructor <;> linarith

theorem valueSet_le_of_le {j k : Nat} (hjk : j ≤ k) (hk : k ≤ 0x6F) : valueSet j ≤ valueSet k := by
  rcases hjk.eq_or_lt with rfl | hlt
  · exact le_rfl
  · exact (valueSet_lt_of_lt hlt hk).le

theorem valueMidpoint_one : valueMidpoint 1 = (2 : ℚ) ^ (-7 : ℤ) := by
  rw [valueMidpoint_eq_scaled (by omega), scaledMid_of_le (by omega) (by omega)]
  norm_num

section
variable (np : BitVec 4) {w : F32} {x : ℚ}

/-- A code below the result's lies at or beyond the result's mid-point, on its far side. -/
theorem encodeWith_beats_smaller (h : val32 w = some x) {j : Nat} (hj : j < (mf8Mag (encodeWith np w)).toNat) :
    |(|x|) - valueSet (mf8Mag (encodeWith np w)).toNat| ≤ |(|x|) - valueSet j| := by
  have hk := mf8Mag_encodeWith_le np h
  have hmid := (le_mf8Mag_iff_midpoint np h (by omega) hk).1 le_rfl
  have hprev : valueSet j ≤ valueSet ((mf8Mag (encodeWith np w)).toNat - 1) :=
    valueSet_le_of_le (by omega) (by omega)
  refine abs_sub_le_of_midpoint_le (valueSet_lt_of_lt hj hk) ?_
  rw [valueMidpoint] at hmid
  linarith

/-- A code above the result's has a mid-point that the operand does not reach. -/
theorem encodeWith_beats_greater (h : val32 w = some x) {j : Nat} (hj : (mf8Mag (encodeWith np w)).toNat < j)
    (hmax : j ≤ 0x6F) : |(|x|) - valueSet (mf8Mag (encodeWith np w)).toNat| < |(|x|) - valueSet j| := by
  have hmid : |x| < valueMidpoint ((mf8Mag (encodeWith np w)).toNat + 1) :=
    not_le.1 fun hle => Nat.not_succ_le_self _ ((le_mf8Mag_iff_midpoint np h (by omega) (by omega)).2 hle)
  have hnext : valueSet ((mf8Mag (encodeWith np w)).toNat + 1) ≤ valueSet j := valueSet_le_of_le hj hmax
  refine abs_sub_lt_of_lt_midpoint (valueSet_lt_of_lt hj hmax) ?_
  rw [valueMidpoint, Nat.add_sub_cancel] at hmid
  linarith

/-- Below 2^-7, the first mid-point, the code is 0 (R86, R90). -/
theorem mf8Mag_encodeWith_of_lt (h : val32 w = some x) (hx : |x| < (2 : ℚ) ^ (-7 : ℤ)) :
    (mf8Mag (encodeWith np w)).toNat = 0 := by
  have hmid := (le_mf8Mag_iff_midpoint np h (k := 1) (by omega) (by omega)).not
  rw [valueMidpoint_one, not_le, not_le] at hmid
  exact Nat.lt_one_iff.1 (hmid.2 hx)

end

/-- Settles O46: smaller codes are beaten or tied, greater ones beaten, and the last mid-point lies below 15.5. -/
theorem encodeRoundsToNearestTiesAway : Obligations.EncodeRoundsToNearestTiesAway := by
  unfold Obligations.EncodeRoundsToNearestTiesAway
  refine ⟨?rounds, ?tie, by decide, by decide⟩
  case rounds =>
    intro np w x h k
    have hk : k ≤ 0x6F := mf8Mag_encodeWith_le np h
    refine ⟨hk, fun j hmax hne => ?nearest, fun hx => ?saturates, mf8Mag_encodeWith_of_lt np h⟩
    case nearest =>
      rcases Nat.lt_or_gt_of_ne hne with hj | hj
      · rcases (encodeWith_beats_smaller np h hj).lt_or_eq with hlt | heq
        · exact .inl hlt
        · exact .inr ⟨heq, valueSet_lt_of_lt hj hk⟩
      · exact .inl (encodeWith_beats_greater np h hj hmax)
    case saturates =>
      have hlast : valueMidpoint 0x6F ≤ |x| := by
        have hscaled : scaledMid 0x6F = 1952 := by decide
        rw [valueMidpoint_eq_scaled le_rfl, hscaled]
        norm_num
        linarith
      exact le_antisymm hk ((le_mf8Mag_iff_midpoint np h (by omega) le_rfl).2 hlast)
  case tie =>
    have hscaled : scaledMid 0x39 = 196 := by decide
    rw [val32_normal _ 0 127 0x440000 (by decide) (by decide) (by decide) (by decide) (by decide), signFactor_zero,
      valueMidpoint_eq_scaled (by omega), hscaled]
    norm_num

/-- Settles O41: 2^-7 is the first mid-point, and the one of code 17 lies above 0.25. -/
theorem subnormalsAndZeros : Obligations.SubnormalsAndZeros := by
  unfold Obligations.SubnormalsAndZeros
  refine ⟨fun w h => ?subnormal, fun w x _ _ h => ⟨fun hlow hhigh => ⟨?positive, ?small⟩, fun hx => ?zero⟩,
    by decide, by decide, by decide, by decide, by decide, by decide⟩
  case subnormal => exact (mf8Mag_encodeWord_eq_iff w 0).2 (encodeMag_of_subnormal _ h)
  case positive =>
    rw [← valueMidpoint_one] at hlow
    exact (le_mf8Mag_iff_midpoint _ h le_rfl (by omega)).2 hlow
  case small =>
    by_contra hlarge
    have hmid := (le_mf8Mag_iff_midpoint Config.nanPayload h (k := 17) (by omega) (by omega)).1 (not_le.1 hlarge)
    rw [valueMidpoint_eq_scaled (by omega), scaledMid_of_le (by omega) (by omega)] at hmid
    norm_num at hmid
    linarith
  case zero => exact BitVec.eq_of_toNat_eq (mf8Mag_encodeWith_of_lt _ h hx)

/-! ## Mid-points as operands, and the order of operands -/

theorem le_encodeMag_iff_magBits (np : BitVec 4) {w : F32} {k : Nat} (hfinite : (f32Exp w).toNat ≠ 255)
    (hlow : 1 ≤ k) (hhigh : k ≤ 0x6F) :
    k ≤ encodeMag np (f32Exp w) (f32Man w) ↔ midpointBits k ≤ magBits w := by
  rw [le_encodeMag_iff np hfinite hlow hhigh, magBits_eq]

theorem f32Sign_eq_zero_iff (w : F32) : f32Sign w = 0 ↔ w.toNat < 2 ^ 31 := by
  rw [← BitVec.toNat_inj, f32Sign_toNat]
  change w.toNat / 2 ^ 31 = 0 ↔ _
  omega

/-- A non-negative operand is its own magnitude pattern. -/
theorem magBits_of_nonneg {w : F32} (h : f32Sign w = 0) : magBits w = w.toNat :=
  Nat.mod_eq_of_lt ((f32Sign_eq_zero_iff w).1 h)

/-- The byte of a non-negative operand is its magnitude code. -/
theorem encodeWord_toNat_of_nonneg {w : F32} (h : f32Sign w = 0) :
    (encodeWord w).toNat = encodeMag Config.nanPayload (f32Exp w) (f32Man w) := by
  rw [encodeWord, encodeWith_toNat, h]
  exact Nat.zero_add _

theorem midpointBits_lt_of_lt {j k : Nat} (hlow : 1 ≤ j) (hjk : j < k) (hk : k ≤ 0x6F) :
    midpointBits j < midpointBits k := by
  have := scaledMid_lt_of_lt hlow hjk hk
  rw [← scaledBits_strictMono.lt_iff_lt, (scaledBits_midpointBits hlow (by omega)).1,
    (scaledBits_midpointBits (by omega) hk).1]
  gcongr

/-- The operand with the pattern of a mid-point is finite, and its code is that of the mid-point. -/
theorem encodeMag_of_magBits_midpoint (np : BitVec 4) {w : F32} {k : Nat} (hlow : 1 ≤ k) (hhigh : k ≤ 0x6F)
    (h : magBits w = midpointBits k) :
    (f32Exp w).toNat ≠ 255 ∧ encodeMag np (f32Exp w) (f32Man w) = k := by
  have hfinite : (f32Exp w).toNat ≠ 255 := by
    have hbits := (scaledBits_midpointBits hlow hhigh).2
    rw [← h, magBits_eq] at hbits
    omega
  refine ⟨hfinite, le_antisymm ?_ ((le_encodeMag_iff_magBits np hfinite hlow hhigh).2 h.ge)⟩
  have hmax := encodeMag_le_of_finite np (F := f32Man w) hfinite
  by_contra hgt
  have hnext := (le_encodeMag_iff_magBits np hfinite (k := k + 1) (by omega) (by omega)).1 (by omega)
  have := midpointBits_lt_of_lt hlow (Nat.lt_add_one k) (by omega)
  omega

/-- The value of a non-negative finite operand, in units of 2^-149. -/
theorem val32_of_nonneg {w : F32} (hfinite : (f32Exp w).toNat ≠ 255) (hs : f32Sign w = 0) :
    val32 w = some (scaledBits (magBits w) * (2 : ℚ) ^ (-149 : ℤ)) := by
  obtain ⟨x, hx⟩ := Option.ne_none_iff_exists'.1 fun hnone => hfinite ((val32_eq_none_iff w).1 hnone)
  rw [hx, val32_eq_scaled w x hx, hs, signFactor_zero, one_mul, scaledBits_magBits]

/-- Settles O47: the operand with the mid-point's pattern, and the patterns that reach the code. -/
theorem midpointIsTheSmallestOperand : Obligations.MidpointIsTheSmallestOperand := by
  unfold Obligations.MidpointIsTheSmallestOperand
  intro k hlow hhigh
  obtain ⟨hscaled, hbits⟩ := scaledBits_midpointBits hlow hhigh
  have hnat : (BitVec.ofNat 32 (midpointBits k)).toNat = midpointBits k := by
    rw [BitVec.toNat_ofNat, Nat.mod_eq_of_lt (by omega)]
  have hs : f32Sign (BitVec.ofNat 32 (midpointBits k)) = 0 := (f32Sign_eq_zero_iff _).2 (by omega)
  have hmag : magBits (BitVec.ofNat 32 (midpointBits k)) = midpointBits k := (magBits_of_nonneg hs).trans hnat
  have hbyte : (BitVec.ofNat 8 k).toNat = k := by rw [BitVec.toNat_ofNat, Nat.mod_eq_of_lt (by omega)]
  obtain ⟨hfinite, hcode⟩ := encodeMag_of_magBits_midpoint Config.nanPayload hlow hhigh hmag
  refine ⟨BitVec.ofNat 32 (midpointBits k), hs, ?value, ?code, fun v hv hcode' => ?smallest⟩
  case value =>
    rw [val32_of_nonneg hfinite hs, hmag, hscaled, valueMidpoint_eq_scaled hhigh]
    push_cast
    norm_num
    ring
  case code =>
    apply BitVec.eq_of_toNat_eq
    rw [encodeWord_toNat_of_nonneg hs, hcode, hbyte]
  case smallest =>
    have hk : encodeMag Config.nanPayload (f32Exp v) (f32Man v) = k := by
      rw [← encodeWord_toNat_of_nonneg hv, hcode', hbyte]
    have hfinite' : (f32Exp v).toNat ≠ 255 := by
      intro hE
      have hE' : f32Exp v = 0xFF := BitVec.eq_of_toNat_eq hE
      rw [hE', encodeMag_exp_max] at hk
      split_ifs at hk <;> omega
    rw [hnat, ← magBits_of_nonneg hv]
    exact (le_encodeMag_iff_magBits _ hfinite' hlow hhigh).1 hk.ge

/-- Infinity has the greatest pattern that is no NaN. -/
theorem finite_or_inf {w : F32} (h : magBits w ≤ 0x7F800000) : (f32Exp w).toNat ≠ 255 ∨ f32ClassOf w = .inf := by
  rw [magBits_eq] at h
  rw [f32ClassOf, f32Class_inf_iff]
  omega

/-- Up to infinity a greater pattern has no smaller code (R98). -/
theorem encodeMag_mono (np : BitVec 4) {w w' : F32} (hle : magBits w ≤ magBits w')
    (hmax : magBits w' ≤ 0x7F800000) :
    encodeMag np (f32Exp w) (f32Man w) ≤ encodeMag np (f32Exp w') (f32Man w') ∧
      encodeMag np (f32Exp w') (f32Man w') ≤ 0x70 := by
  rcases finite_or_inf hmax with hfinite' | hinf'
  · have hfinite : (f32Exp w).toNat ≠ 255 := by
      have := (f32Exp w').isLt
      have := (f32Man w').isLt
      rw [magBits_eq, magBits_eq] at hle
      omega
    have hcode := encodeMag_le_of_finite np (F := f32Man w) hfinite
    have hcode' := encodeMag_le_of_finite np (F := f32Man w') hfinite'
    refine ⟨?_, hcode'.trans (by decide)⟩
    by_cases h0 : encodeMag np (f32Exp w) (f32Man w) = 0
    · rw [h0]
      exact Nat.zero_le _
    · have hmid := (le_encodeMag_iff_magBits np hfinite (Nat.pos_of_ne_zero h0) hcode).1 le_rfl
      exact (le_encodeMag_iff_magBits np hfinite' (Nat.pos_of_ne_zero h0) hcode).2 (hmid.trans hle)
  · rw [encodeMag_of_inf np hinf']
    refine ⟨?_, le_rfl⟩
    rcases finite_or_inf (hle.trans hmax) with hfinite | hinf
    · exact (encodeMag_le_of_finite np hfinite).trans (by decide)
    · exact (encodeMag_of_inf np hinf).le

/-- Settles O48: the codes are ordered as the patterns, and `DECODE` as the codes. -/
theorem encodeIsMonotone : Obligations.EncodeIsMonotone := by
  unfold Obligations.EncodeIsMonotone
  intro w w' hle hmax
  have hs' : f32Sign w' = 0 := (f32Sign_eq_zero_iff w').2 (by omega)
  have hs : f32Sign w = 0 := (f32Sign_eq_zero_iff w).2 (by omega)
  rw [← magBits_of_nonneg hs, ← magBits_of_nonneg hs'] at hle
  rw [← magBits_of_nonneg hs'] at hmax
  obtain ⟨hmono, hlast⟩ := encodeMag_mono Config.nanPayload hle hmax
  rw [← encodeWord_toNat_of_nonneg hs, ← encodeWord_toNat_of_nonneg hs'] at hmono
  rw [← encodeWord_toNat_of_nonneg hs'] at hlast
  refine ⟨hmono, ?_⟩
  rcases hmono.eq_or_lt with heq | hlt
  · rw [roundTrip32, roundTrip32, BitVec.eq_of_toNat_eq heq]
  · simpa [roundTrip32] using (decodeByte_lt_of_lt hlt hlast).le

end Sys2Proof.Machine
end

section
/-! The situations that other hardware would signal (spec/60_exceptions.md R102): the operands that show each, the
result the block gives, and that a discarded bit is a changed value. -/

namespace Sys2Proof.Machine

/-! ## Discarded bits -/

/-- `uint(sig24) = 2^23 + F` (R47). -/
theorem sig24_toNat (F : BitVec 23) : (sig24 F).toNat = 2 ^ 23 + F.toNat := by
  have happend : (sig24 F).toNat = 1 <<< 23 ||| F.toNat := BitVec.toNat_append 1#1 F
  rw [happend, ← Nat.shiftLeft_add_eq_or_of_lt F.isLt]
  rfl

section
variable {E : BitVec 8} {F : BitVec 23}

/-- In range the shift is by 19 places (R66). -/
theorem discardsBits_of_inrange (h : f32Class E F = .inrange) :
    discardsBits E F = true ↔ F.toNat % 2 ^ 19 ≠ 0 := by
  simp only [discardsBits, h, sig24_toNat, bne_iff_ne]
  omega

/-- On the denormal path the shift is by `19 + d` places (R68). -/
theorem discardsBits_of_underflowDenormal (h : f32Class E F = .underflowDenormal) :
    discardsBits E F = true ↔ (2 ^ 23 + F.toNat) % 2 ^ (19 + (125 - E.toNat)) ≠ 0 := by
  simp only [discardsBits, h, sig24_toNat, shiftAmount_eq, bne_iff_ne]

theorem class_of_discardsBits (h : discardsBits E F = true) :
    f32Class E F = .inrange ∨ f32Class E F = .underflowDenormal := by
  unfold discardsBits at h
  cases hc : f32Class E F <;> simp_all

/-- The operands that discard a bit, by ranges of `E` (R102 `inexact`). -/
theorem discardsBits_iff :
    discardsBits E F = true ↔
      (125 ≤ E.toNat ∧ E.toNat ≤ 130 ∧ F.toNat % 2 ^ 19 ≠ 0) ∨
      (120 ≤ E.toNat ∧ E.toNat ≤ 124 ∧ (2 ^ 23 + F.toNat) % 2 ^ (19 + (125 - E.toNat)) ≠ 0) := by
  constructor
  · intro h
    rcases class_of_discardsBits h with hc | hc
    · obtain ⟨hlow, hhigh⟩ := (f32Class_inrange_iff E F).1 hc
      exact .inl ⟨hlow, hhigh, (discardsBits_of_inrange hc).1 h⟩
    · obtain ⟨hlow, hhigh⟩ := (f32Class_underflowDenormal_iff E F).1 hc
      exact .inr ⟨hlow, hhigh, (discardsBits_of_underflowDenormal hc).1 h⟩
  · rintro (⟨hlow, hhigh, h⟩ | ⟨hlow, hhigh, h⟩)
    · exact (discardsBits_of_inrange ((f32Class_inrange_iff E F).2 ⟨hlow, hhigh⟩)).2 h
    · exact (discardsBits_of_underflowDenormal ((f32Class_underflowDenormal_iff E F).2 ⟨hlow, hhigh⟩)).2 h

end

/-! ## A discarded bit is a changed value -/

@[simp] theorem mf8Sign_mf8OfMag (s : Sign) (k : Nat) : mf8Sign (mf8OfMag s k) = s :=
  BitVec.extractLsb'_append_eq_left

/-- `ENCODE` of a finite operand keeps the value exactly if the magnitudes agree as whole numbers. -/
theorem val8_encodeWord_eq_iff {w : F32} (hfinite : (f32Exp w).toNat ≠ 255) :
    val8 (encodeWord w) = val32 w ↔
      scaledV (encodeMag Config.nanPayload (f32Exp w) (f32Man w)) * 2 ^ 143 =
        scaled32 (f32Exp w).toNat (f32Man w).toNat := by
  obtain ⟨x, hx⟩ := Option.ne_none_iff_exists'.1 fun hnone => hfinite ((val32_eq_none_iff w).1 hnone)
  have hexp : (mf8Exp (encodeWord w)).toNat ≠ 7 := fun h =>
    hfinite (congrArg BitVec.toNat ((mf8Exp_encodeWith_eq_seven_iff _ w).1 (BitVec.eq_of_toNat_eq h)))
  have hcode : (encodeWord w).toNat % 128 = encodeMag Config.nanPayload (f32Exp w) (f32Man w) := by
    have := encodeMag_le Config.nanPayload (f32Exp w) (f32Man w)
    rw [encodeWord, encodeWith_toNat]
    omega
  have hsign : mf8Sign (encodeWord w) = f32Sign w := mf8Sign_mf8OfMag _ _
  have hne : signFactor (f32Sign w) ≠ 0 := by
    rw [← abs_ne_zero, abs_signFactor]
    exact one_ne_zero
  have hunit : (2 : ℚ) ^ (-149 : ℤ) = 1 / 2 ^ 143 / 64 := by norm_num
  rw [val8_eq_scaled _ hexp, hcode, hsign, hx, val32_eq_scaled w x hx, Option.some_inj, mul_assoc,
    mul_right_inj' hne, hunit, ← mul_div_assoc, div_left_inj' (by norm_num), mul_one_div,
    eq_div_iff (by positivity)]
  exact_mod_cast Iff.rfl

/-- The word of a code from 16 on has its mantissa in `top4` and the exponent field above it (R81, R85). -/
theorem scaledBits_word {k : Nat} (hlow : 16 ≤ k) (hhigh : k ≤ 0x6F) :
    scaledBits (2 ^ 19 * (k + 1984)) = scaledV k * 2 ^ 143 := by
  have hcodes : ∀ k : Fin 96, scaledBits (2 ^ 19 * (k.val + 16 + 1984)) = scaledV (k.val + 16) * 2 ^ 143 := by decide
  have hk : k - 16 + 16 = k := by omega
  exact hk ▸ hcodes ⟨k - 16, by omega⟩

section
variable {E : BitVec 8} {F : BitVec 23}

/-- In range the rounded code's word is the operand exactly if `top4` holds all of the mantissa (R66, R67). -/
theorem scaledV_inrangeMag_eq_iff (hlow : 125 ≤ E.toNat) (hhigh : E.toNat ≤ 130) :
    scaledV (inrangeMag E F) * 2 ^ 143 = scaled32 E.toNat F.toNat ↔ F.toNat % 2 ^ 19 = 0 := by
  have hF := F.isLt
  have hk1 := k1_eq E F
  rw [← scaledBits_word (inrangeMag_ge hlow) (inrangeMag_le E F hhigh), ← scaledBits_fields _ _ hF,
    scaledBits_strictMono.injective.eq_iff]
  by_cases hcarry : k1 E F = 112
  · have hcode : inrangeMag E F = 0x6F := if_pos hcarry
    omega
  · rw [inrangeMag_eq_k1 hcarry]
    omega

/-- On the denormal path the rounded code's value is the operand's exactly if the shift discards zeros (R68). -/
theorem scaledV_underflowDenormalMag_eq_iff (hlow : 120 ≤ E.toNat) (hhigh : E.toNat ≤ 124) :
    scaledV (underflowDenormalMag E F) * 2 ^ 143 = scaled32 E.toNat F.toNat ↔
      (2 ^ 23 + F.toNat) % 2 ^ (19 + (125 - E.toNat)) = 0 := by
  have hF := F.isLt
  have hrange := (underflowDenormalMag_range E F hlow hhigh).2
  rw [scaledV_of_le (by omega), underflowDenormalMag_eq E F hlow hhigh, scaled32, if_neg (by omega)]
  have hE : E.toNat = 120 ∨ E.toNat = 121 ∨ E.toNat = 122 ∨ E.toNat = 123 ∨ E.toNat = 124 := by omega
  rcases hE with e | e | e | e | e <;> rw [e] <;> omega

end

/-- Settles O54: both sides say that the bits below the retained ones are 0. -/
theorem inexactExactlyWhenTheValueChanges : Obligations.InexactExactlyWhenTheValueChanges := by
  unfold Obligations.InexactExactlyWhenTheValueChanges
  rintro w (hclass | hclass)
  · obtain ⟨hlow, hhigh⟩ := (f32Class_inrange_iff _ _).1 hclass
    rw [showsSituation, discardsBits_of_inrange hclass, ne_eq (val8 _), val8_encodeWord_eq_iff (by omega),
      encodeMag_of_inrange _ hclass, scaledV_inrangeMag_eq_iff hlow hhigh]
  · obtain ⟨hlow, hhigh⟩ := (f32Class_underflowDenormal_iff _ _).1 hclass
    rw [showsSituation, discardsBits_of_underflowDenormal hclass, ne_eq (val8 _), val8_encodeWord_eq_iff (by omega),
      encodeMag_of_underflowDenormal _ hclass, scaledV_underflowDenormalMag_eq_iff hlow hhigh]

/-! ## Situations and results -/

/-- `ENCODE` of an operand with code `k` drives the encoder to the byte of the operand's sign and `k`. -/
theorem exec_encode_of_mag {w : F32} {k : Nat} (h : encodeMag Config.nanPayload (f32Exp w) (f32Man w) = k) (s : State) :
    exec (.encode w) s = .next (driveEncIn w (f32Sign w ++ BitVec.ofNat 7 k) s) := by
  subst h
  rfl

/-- A mantissa's top bit is 0 in its lower half. -/
theorem not_getLsbD_top_iff (F : BitVec 23) : (!F.getLsbD 22) = true ↔ F.toNat < 2 ^ 22 := by
  have := F.isLt
  rw [Bool.not_eq_true', BitVec.getLsbD, Nat.testBit_eq_decide_div_mod_eq, decide_eq_false_iff_not]
  omega

/-- Settles O53: each situation is a class, or a part of one, with the code of that class. -/
theorem situationsAreResolvedSilently : Obligations.SituationsAreResolvedSilently := by
  unfold Obligations.SituationsAreResolvedSilently
  intro w s
  have hn := magBits_eq w
  have hE := (f32Exp w).isLt
  have hF := (f32Man w).isLt
  refine ⟨?overflow, ?byRounding, ?underflow, ?total, ?subnormal, ?invalid, ?nan, discardsBits_iff,
    ?saturated, ?flushed, ?nans, ?denormal, ?rounded⟩
  case overflow =>
    rw [showsSituation, beq_iff_eq, f32ClassOf, f32Class_overflow_iff]
    omega
  case byRounding =>
    rw [showsSituation, Bool.and_eq_true, beq_iff_eq, beq_iff_eq, f32ClassOf, f32Class_inrange_iff, k1_eq,
      Config.mfInfinity]
    omega
  case underflow =>
    rw [showsSituation, beq_iff_eq, f32ClassOf, f32Class_underflowDenormal_iff]
    omega
  case total =>
    rw [showsSituation, beq_iff_eq, f32ClassOf, f32Class_underflowZero_iff]
    omega
  case subnormal =>
    rw [showsSituation, beq_iff_eq, f32ClassOf, f32Class_subnormal_iff]
    omega
  case invalid =>
    rw [showsSituation, Bool.and_eq_true, beq_iff_eq, f32ClassOf, f32Class_nan_iff, not_getLsbD_top_iff]
    omega
  case nan =>
    rw [showsSituation, beq_iff_eq, f32ClassOf, f32Class_nan_iff]
    omega
  case saturated =>
    rintro (h | h)
    · exact exec_encode_of_mag (encodeMag_of_overflow _ (beq_iff_eq.1 h)) s
    · obtain ⟨hclass, hcarry⟩ := Bool.and_eq_true_iff.1 h
      have hcode : inrangeMag (f32Exp w) (f32Man w) = 0x6F := if_pos (beq_iff_eq.1 hcarry)
      exact exec_encode_of_mag ((encodeMag_of_inrange _ (beq_iff_eq.1 hclass)).trans hcode) s
  case flushed =>
    rintro (h | h)
    · exact exec_encode_of_mag (encodeMag_of_underflowZero _ (beq_iff_eq.1 h)) s
    · exact exec_encode_of_mag (encodeMag_of_subnormal _ (beq_iff_eq.1 h)) s
  case nans =>
    rintro (h | h)
    · exact exec_encode_of_mag (encodeMag_of_nan _ (beq_iff_eq.1 (Bool.and_eq_true_iff.1 h).1)) s
    · exact exec_encode_of_mag (encodeMag_of_nan _ (beq_iff_eq.1 h)) s
  case denormal =>
    intro h
    exact exec_encode_of_mag (encodeMag_of_underflowDenormal _ (beq_iff_eq.1 h)) s
  case rounded =>
    intro h
    rcases class_of_discardsBits h with hclass | hclass
    · have hrange := (f32Class_inrange_iff _ _).1 hclass
      exact ⟨fun _ => exec_encode_of_mag (encodeMag_of_inrange _ hclass) s, fun _ => by omega⟩
    · have hrange := (f32Class_underflowDenormal_iff _ _).1 hclass
      exact ⟨fun _ => by omega, fun _ => exec_encode_of_mag (encodeMag_of_underflowDenormal _ hclass) s⟩

end Sys2Proof.Machine
end
